-- ==== Sys2Proof/Word.lean ====
section
/-! DEFINITION. The two widths of the block's values (spec 00_scope R6): a byte `u8` and a word
`u16`, both unsigned bit vectors. -/

namespace Sys2Proof

/-- `u8` of R6. -/
abbrev Byte := BitVec 8

/-- `u16` of R6. -/
abbrev Word := BitVec 16

end Sys2Proof
end

