-- ==== Sys2Proof/Config.lean ====
section
/-! DEFINITION. What an implementation fixes (spec 00_scope R5) and the free values of the model. -/

namespace Sys2Proof

/-- The two independent implementation parameters of R5, with the spec's default values. DESIGN CHOICE
(log 8): they are carried in State, so that a statement about every state is one about every block. -/
structure Params where
  /-- `FRAME_MAX`: capacity in bytes of each frame buffer. -/
  frameMax : Nat := 256
  /-- `HAS_FC10`: whether function code 0x10 is implemented. -/
  hasFc10 : Bool := true
deriving DecidableEq, Repr

/-- `WMAX` of R5: the largest word count ENC_WRN accepts and the number of WDATA registers. -/
def Params.wmax (p : Params) : Nat := min 127 ((p.frameMax - 9) / 2)

/-- `PMAX` of R5: the number of PWORD registers. -/
def Params.pmax (p : Params) : Nat := min 127 ((p.frameMax - 5) / 2)

/-- `LENW` of R5, `ceil(log2(FRAME_MAX + 1))`: the width in bits of TXLEN and RXLEN. -/
def Params.lenw (p : Params) : Nat := Nat.clog 2 (p.frameMax + 1)

/-- The parameter values the spec admits: `FRAME_MAX >= 11` (R5), and `FRAME_MAX <= 512`, the range in
which the register numbers of 10_state R29 are valid. -/
abbrev Params.wf (p : Params) : Prop := 11 ≤ p.frameMax ∧ p.frameMax ≤ 512

/-- The value encodings of a Register descriptor (43_host_layers R101, R103). `FixedPoint(scale)`: the spec
says of the scale only that the raw integer is divided by it; DESIGN CHOICE (log 17): any rational number, so a
fractional or negative one too; 0 divides nothing and is outside the spec. -/
inductive ValueEncoding where
  | unsigned16
  | signed16
  | fixedPoint (scale : ℚ)
deriving DecidableEq, Repr

/-- FREE VALUE (10_state R24, R29; log 4, log 5): the n-th use of an element with no defined value, by a host
read or by ENC_WRN, or of an unassigned register number. No body: nothing can be proved about any value of it. -/
opaque Config.freeDraw : Nat → Word

/-- FREE VALUE (log 6): what a byte of RXBUF below RXLEN reads as in a state where nothing has written it.
No run from reset has such a byte. No body. -/
opaque Config.unwrittenByte : Nat → Byte

/-- FREE VALUE (log 24): the DecodedValue of payload words whose meaning the spec does not state: a payload whose
number of words is not the register's width (91_not_in_source N6), and any payload at scale 0. No body. -/
opaque Config.unstatedValue : ValueEncoding → List Word → ℚ

/-- FREE VALUE (log 24): whether the first word of the two-word register at an address is the high half of its
RawValue, the order being not in the source (91_not_in_source N17). No body. -/
opaque Config.highWordFirst : Word → Bool

end Sys2Proof
end

