-- ==== Sys2Proof/Machine/Operands.lean ====
section
/-! DEFINITION. Operand forms: the halves of a word, the two byte orders of a frame (spec 20_memory R31,
R32, 30_encoding R53) and the fields of the command word (30_encoding R55). -/

namespace Sys2Proof.Machine

/-- `hi(w) = w[15:8]` (00_scope R6). -/
def hi (w : Word) : Byte := w.extractLsb' 8 8

/-- `lo(w) = w[7:0]` (00_scope R6). -/
def lo (w : Word) : Byte := w.extractLsb' 0 8

/-- `{h, l}`: the word with `h` in the high-order byte (00_scope R6). -/
def be (h l : Byte) : Word := h ++ l

/-- A 16-bit data field on the wire, high byte first (20_memory R31, `MemWrite(B, i, 2, v)`). -/
def beBytes (w : Word) : List Byte := [hi w, lo w]

/-- The CRC trailer on the wire, low byte first (20_memory R32, `MemWriteLE(B, i, c)`). -/
def leBytes (w : Word) : List Byte := [lo w, hi w]

/-- The data words of a frame as bytes, in order, each high byte first (20_memory R31). -/
def bytesOfWords : List Word → List Byte
  | [] => []
  | w :: ws => hi w :: lo w :: bytesOfWords ws

/-- The data bytes of a frame as words, in order, each high byte first (`MemRead(B, i, 2)`, 20_memory R31).
A single byte left over forms no word. -/
def wordsOfBytes : List Byte → List Word
  | h :: l :: bs => be h l :: wordsOfBytes bs
  | _ => []

/-- An 8-bit value on the 16-bit bus, in the low 8 bits (30_encoding R53, last paragraph); also
`zext_16(b)` of 00_scope R6. -/
def zext16 (b : Byte) : Word := b.setWidth 16

/-- `cw[15:11]`, which must be 0 (30_encoding R55). -/
def cwZero (cw : Word) : BitVec 5 := cw.extractLsb' 11 5

/-- `op`, `cw[10:8]` (30_encoding R55). -/
def cwOp (cw : Word) : BitVec 3 := cw.extractLsb' 8 3

/-- `imm8`, `cw[7:0]`, used as it stands (30_encoding R55). -/
def cwImm (cw : Word) : Byte := cw.extractLsb' 0 8

/-- The command word `{0b00000, op, imm8}` (30_encoding R60). -/
def commandWord (op : BitVec 3) (imm : Byte) : Word := 0#5 ++ op ++ imm

end Sys2Proof.Machine
end

