-- ==== Sys2Proof/Machine/Crc.lean ====
section
/-! DEFINITION. The CRC-16/Modbus functions (spec 40_crc R65, R66) and the equivalent forms the spec gives
(R70 table form, R71 bit-serial form). The algorithm beyond the numbers 16, 0xA001 and 0xFFFF is general
knowledge by the spec's own mark (93_implementation_defined G1; log 14). -/

namespace Sys2Proof.Machine

/-- "initial register 0xFFFF" (R66): the value a computation starts from. -/
def crcStart : Word := 0xFFFF#16

/-- One pass of the loop of R65: test bit 0, shift right, XOR 0xA001 if the tested bit was 1. -/
def crcShift (c : Word) : Word :=
  if c.getLsbD 0 then (c >>> 1) ^^^ 0xA001#16 else c >>> 1

/-- The loop of R65, `n` passes. -/
def crcShifts : Nat → Word → Word
  | 0, c => c
  | n + 1, c => crcShifts n (crcShift c)

/-- `crc_step(c, b)` of R65: the byte enters the low half, then eight passes. -/
def crcStep (c : Word) (b : Byte) : Word := crcShifts 8 (c ^^^ zext16 b)

/-- `crc_step` over a byte sequence, first byte first, from register `c`. -/
def crcOver (c : Word) (bs : List Byte) : Word := bs.foldl crcStep c

/-- `crc16(s)` of R66. -/
def crc16 (bs : List Byte) : Word := crcOver crcStart bs

/-- `T[k]` of R70: the eight passes started from `zext_16(k)`. -/
def crcTable (k : Byte) : Word := crcStep 0#16 k

/-- The table form of `crc_step` (R70). -/
def crcStepTable (c : Word) (b : Byte) : Word := (c >>> 8) ^^^ crcTable (lo (c ^^^ zext16 b))

/-- One input bit of the bit-serial form (R71). -/
def crcBit (c : Word) (d : Bool) : Word :=
  (c >>> 1) ^^^ (if (c.getLsbD 0).xor d then 0xA001#16 else 0#16)

/-- The bit-serial form of `crc_step` (R71): the bits of `b` from bit 0 up. -/
def crcStepSerial (c : Word) (b : Byte) : Word :=
  (List.range 8).foldl (fun c i => crcBit c (b.getLsbD i)) c

/-- A body with its CRC appended, low byte first (40_crc R73, 41_encode R75). -/
def withTrailer (body : List Byte) : List Byte := body ++ leBytes (crc16 body)

/-- The body of a frame: all bytes but the last two (20_memory R39; 90_conflicts C2). -/
def frameBody (f : List Byte) : List Byte := f.take (f.length - 2)

/-- The trailer of a frame read little-endian, `{f[len-1], f[len-2]}` (`MemReadLE`, 20_memory R32). -/
def frameTrailer (f : List Byte) : Word := be (f.getD (f.length - 1) 0#8) (f.getD (f.length - 2) 0#8)

/-- The verification of R73: the computed CRC over the body is the trailing field. -/
def crcMatches (f : List Byte) : Bool := crc16 (frameBody f) == frameTrailer f

end Sys2Proof.Machine
end

