-- ==== Sys2Proof/Syntax.lean ====
section
/-! DEFINITION. The instructions: one constructor per row of spec/opcode_table.json, eight commands (format
CW, 30_encoding R55, R56) and seven wire frames (format FRAME, 30_encoding R45 to R52). -/

namespace Sys2Proof

/-- One constructor per row of the opcode table, with every field of the row's encoding that is not fixed.
A command keeps its `imm8` even where it is ignored (R55), so that no bit of its word is dropped. A frame
keeps the fields of its layout; the CRC trailer, the byte count and the word count follow from them. -/
inductive Instr where
  /-- CRC_INIT (40_crc R68); `imm8` ignored. -/
  | crcInit (imm : Byte)
  /-- CRC_BYTE (40_crc R69); `imm8` is the data byte. -/
  | crcByte (imm : Byte)
  /-- ENC_READ (41_encode R76); `imm8` ignored. -/
  | encRead (imm : Byte)
  /-- ENC_WR1 (41_encode R78); `imm8` ignored. -/
  | encWr1 (imm : Byte)
  /-- ENC_WRN (41_encode R79); `imm8` ignored. -/
  | encWrn (imm : Byte)
  /-- RX_CLEAR (42_decode R86); `imm8` ignored. -/
  | rxClear (imm : Byte)
  /-- RX_BYTE (42_decode R87); `imm8` is the received byte. -/
  | rxByte (imm : Byte)
  /-- DEC (42_decode R90); `imm8` is the expected function code. -/
  | dec (imm : Byte)
  /-- RQ_READ, read holding registers request (30_encoding R46). -/
  | rqRead (addr : Byte) (start count : Word)
  /-- RQ_WR1, write single register request (30_encoding R47). -/
  | rqWr1 (addr : Byte) (reg val : Word)
  /-- RQ_WRN, write multiple registers request (30_encoding R48); `n` is the number of data words. -/
  | rqWrn (addr : Byte) (start : Word) (data : List Word)
  /-- RS_READ, read holding registers response (30_encoding R49); `bc` is twice the number of words. -/
  | rsRead (addr : Byte) (words : List Word)
  /-- RS_WR1, write single register response (30_encoding R50). -/
  | rsWr1 (addr : Byte) (reg val : Word)
  /-- RS_WRN, write multiple registers response (30_encoding R51). -/
  | rsWrn (addr : Byte) (start n : Word)
  /-- RS_EXC, exception response (30_encoding R52): `fc` is the low seven bits of byte 1; `rest` is what
  stands between the exception code and the trailer, nothing in a well-formed frame. -/
  | rsExc (addr : Byte) (fc : BitVec 7) (code : Byte) (rest : List Byte)
deriving DecidableEq, Repr

end Sys2Proof
end

