-- ==== Sys2Proof/Decode.lean ====
section
/-! DEFINITION. Decoding, total on any bits, and the encoder written from the same tables: the command word
(spec 30_encoding R55 to R57), the response frames as `decode_response` takes them apart (42_decode R90 to
R94), and a reader of request frames (30_encoding R46 to R48), which the block itself never uses. -/

namespace Sys2Proof

open Sys2Proof.Machine

/-- The five error kinds of DEC (60_exceptions R116), in the order of its steps. -/
inductive ModbusError where
  | shortRead
  | crcMismatch
  | exceptionResponse (code : Byte)
  | unexpectedFunctionCode
  | malformedFrame
deriving DecidableEq, Repr

/-- A response frame that DEC has taken apart, one constructor per response row of the opcode table. -/
inductive Response where
  | read (addr : Byte) (words : List Word)
  | wr1 (addr : Byte) (reg val : Word)
  | wrn (addr : Byte) (start n : Word)
  | exc (addr : Byte) (fc : BitVec 7) (code : Byte) (rest : List Byte)
deriving DecidableEq, Repr

/-- The opcode table's row of a response frame. -/
def Response.toInstr : Response → Instr
  | .read a ws => .rsRead a ws
  | .wr1 a r v => .rsWr1 a r v
  | .wrn a s n => .rsWrn a s n
  | .exc a fc code rest => .rsExc a fc code rest

/-- Where an instruction stands: a command word on the host's bus, a request frame in TXBUF, a response
frame in RXBUF. The three never mix (30_encoding, opening paragraph). -/
inductive Packet where
  | command (cw : Word)
  | request (bytes : List Byte)
  | response (bytes : List Byte)
deriving DecidableEq, Repr

/-- Why bits are no instruction: a command word with `cw[15:11] != 0` (30_encoding R57), or a byte sequence
that is no frame of the table, by the name of the decoder's own error for it (30_encoding R58). -/
inductive Reject where
  | reservedBits
  | frame (e : ModbusError)
deriving DecidableEq, Repr

/-- Function code 0x03, read holding registers (00_scope R2). -/
def fcRead : Byte := 0x03#8

/-- Function code 0x06, write single register (00_scope R2). -/
def fcWr1 : Byte := 0x06#8

/-- Function code 0x10, write multiple registers (00_scope R2). -/
def fcWrn : Byte := 0x10#8

/-- The command opcode map (30_encoding R56). -/
def decodeOp (op : BitVec 3) (imm : Byte) : Instr :=
  match op.toNat with
  | 0 => .crcInit imm
  | 1 => .crcByte imm
  | 2 => .encRead imm
  | 3 => .encWr1 imm
  | 4 => .encWrn imm
  | 5 => .rxClear imm
  | 6 => .rxByte imm
  | _ => .dec imm

/-- Decoding of a command word (30_encoding R55 to R57). -/
def decodeCommand (cw : Word) : Except Reject Instr :=
  if cwZero cw = 0#5 then .ok (decodeOp (cwOp cw) (cwImm cw)) else .error .reservedBits

/-- `extract_read`, step 5 for `E = 0x03` (42_decode R93): `d` is the data region, offsets 2 to len - 3. -/
def extractRead (a : Byte) : List Byte → Except ModbusError Response
  | bc :: data =>
    if bc.toNat ≠ data.length then .error .malformedFrame
    else if bc.getLsbD 0 then .error .malformedFrame
    else .ok (.read a (wordsOfBytes data))
  | [] => .error .malformedFrame

/-- The two echoed fields of an 8-byte write response (42_decode R94), address first. -/
def extractEcho : List Byte → Except ModbusError (Word × Word)
  | [r1, r0, v1, v0] => .ok (be r1 r0, be v1 v0)
  | _ => .error .malformedFrame

/-- `extract_write`, step 5 for `E = 0x06` and `E = 0x10` (42_decode R94). -/
def extractWrite (e a : Byte) (d : List Byte) : Except ModbusError Response :=
  match extractEcho d with
  | .error err => .error err
  | .ok (r, v) => .ok (if e = fcWr1 then .wr1 a r v else .wrn a r v)

/-- Steps 3 to 5 of DEC on the body of a frame (42_decode R90 to R94): the exception test on bit 7 of byte
1, the comparison with the expected code `e`, the payload. A body of 5 or more frame bytes has at least
three bytes, so the other shapes are never met. -/
def decodeBody (e : Byte) : List Byte → Except ModbusError Response
  | a :: f :: d =>
    if f.getLsbD 7 then
      match d with
      | code :: rest => .ok (.exc a (f.extractLsb' 0 7) code rest)
      | [] => .error .shortRead
    else if f ≠ e then .error .unexpectedFunctionCode
    else if e = fcRead then extractRead a d
    else extractWrite e a d
  | _ => .error .shortRead

/-- `decode_response` (42_decode R90), steps 1 to 5, as a function of the bytes and the expected code: what
response row the bytes are, or the first check that fails. An exception frame is a row (RS_EXC); that DEC
reports it as an error is its meaning (42_decode R91). -/
def decodeResponse (e : Byte) (f : List Byte) : Except ModbusError Response :=
  if f.length < 5 then .error .shortRead
  else if crcMatches f then decodeBody e (frameBody f)
  else .error .crcMismatch

/-- The expected code under which a response frame is looked up by its own function code byte (the
function-code map, 30_encoding R54). A code the block does not know selects no row. -/
def ownCode (f : List Byte) : Byte := f.getD 1 0#8

/-- A response frame by its own function code byte (30_encoding R54): RS_EXC where bit 7 is set, else the
row of 0x03, 0x06 or 0x10, else no row. -/
def decodeOwn (f : List Byte) : Except ModbusError Response :=
  if ownCode f = fcRead ∨ ownCode f = fcWr1 ∨ ownCode f = fcWrn then decodeResponse (ownCode f) f
  else decodeResponse fcRead f

/-- The data of an RQ_WRN request after its count fields (30_encoding R48). -/
def decodeWrnData (a : Byte) (start n : Word) (bc : Byte) (data : List Byte) : Except ModbusError Instr :=
  if data.length = 2 * n.toNat ∧ bc.toNat = data.length ∧ 1 ≤ n.toNat then
    .ok (.rqWrn a start (wordsOfBytes data))
  else .error .malformedFrame

/-- A request frame's body by the request rows of the opcode table (30_encoding R46 to R48). -/
def decodeRequestBody : List Byte → Except ModbusError Instr
  | [a, f, s1, s0, v1, v0] =>
    if f = fcRead then .ok (.rqRead a (be s1 s0) (be v1 v0))
    else if f = fcWr1 then .ok (.rqWr1 a (be s1 s0) (be v1 v0))
    else if f = fcWrn then .error .malformedFrame
    else .error .unexpectedFunctionCode
  | a :: f :: s1 :: s0 :: n1 :: n0 :: bc :: data =>
    if f = fcWrn then decodeWrnData a (be s1 s0) (be n1 n0) bc data
    else if f = fcRead ∨ f = fcWr1 then .error .malformedFrame
    else .error .unexpectedFunctionCode
  | _ => .error .shortRead

/-- Reading a request frame back into its row. DESIGN CHOICE (log 15): the block never decodes a request
(00_scope R2, 30_encoding R54); this is the inverse of the layouts of R46 to R48, used in statements only. -/
def decodeRequest (f : List Byte) : Except ModbusError Instr :=
  if f.length < 8 then .error .shortRead
  else if crcMatches f then decodeRequestBody (frameBody f)
  else .error .crcMismatch

/-- The decoder, total on every packet, rejecting by name. -/
def decode : Packet → Except Reject Instr
  | .command cw => decodeCommand cw
  | .request f =>
    match decodeRequest f with
    | .ok i => .ok i
    | .error e => .error (.frame e)
  | .response f =>
    match decodeOwn f with
    | .ok r => .ok r.toInstr
    | .error e => .error (.frame e)

/-- Body of RQ_READ (30_encoding R46). -/
def bodyRqRead (a : Byte) (start count : Word) : List Byte := a :: fcRead :: (beBytes start ++ beBytes count)

/-- Body of RQ_WR1 (30_encoding R47). -/
def bodyRqWr1 (a : Byte) (reg val : Word) : List Byte := a :: fcWr1 :: (beBytes reg ++ beBytes val)

/-- Body of RQ_WRN (30_encoding R48): word count, byte count `(2 * n)[7:0]`, the words. -/
def bodyRqWrn (a : Byte) (start : Word) (data : List Word) : List Byte :=
  a :: fcWrn :: (beBytes start ++ (beBytes (BitVec.ofNat 16 data.length) ++
    (BitVec.ofNat 8 (2 * data.length) :: bytesOfWords data)))

/-- Body of RS_READ (30_encoding R49). -/
def bodyRsRead (a : Byte) (words : List Word) : List Byte :=
  a :: fcRead :: BitVec.ofNat 8 (2 * words.length) :: bytesOfWords words

/-- Body of RS_WR1 (30_encoding R50). -/
def bodyRsWr1 (a : Byte) (reg val : Word) : List Byte := a :: fcWr1 :: (beBytes reg ++ beBytes val)

/-- Body of RS_WRN (30_encoding R51). -/
def bodyRsWrn (a : Byte) (start n : Word) : List Byte := a :: fcWrn :: (beBytes start ++ beBytes n)

/-- Body of RS_EXC (30_encoding R52): byte 1 is `fc OR 0x80`. -/
def bodyRsExc (a : Byte) (fc : BitVec 7) (code : Byte) (rest : List Byte) : List Byte :=
  a :: (1#1 ++ fc) :: code :: rest

/-- The body of a response frame (30_encoding R49 to R52). -/
def Response.body : Response → List Byte
  | .read a ws => bodyRsRead a ws
  | .wr1 a r v => bodyRsWr1 a r v
  | .wrn a s n => bodyRsWrn a s n
  | .exc a fc code rest => bodyRsExc a fc code rest

/-- The encoder: the command word (30_encoding R56, R60) or the frame with its trailer (R46 to R52). -/
def encode : Instr → Packet
  | .crcInit imm => .command (commandWord 0#3 imm)
  | .crcByte imm => .command (commandWord 1#3 imm)
  | .encRead imm => .command (commandWord 2#3 imm)
  | .encWr1 imm => .command (commandWord 3#3 imm)
  | .encWrn imm => .command (commandWord 4#3 imm)
  | .rxClear imm => .command (commandWord 5#3 imm)
  | .rxByte imm => .command (commandWord 6#3 imm)
  | .dec imm => .command (commandWord 7#3 imm)
  | .rqRead a s c => .request (withTrailer (bodyRqRead a s c))
  | .rqWr1 a r v => .request (withTrailer (bodyRqWr1 a r v))
  | .rqWrn a s data => .request (withTrailer (bodyRqWrn a s data))
  | .rsRead a ws => .response (withTrailer (bodyRsRead a ws))
  | .rsWr1 a r v => .response (withTrailer (bodyRsWr1 a r v))
  | .rsWrn a s n => .response (withTrailer (bodyRsWrn a s n))
  | .rsExc a fc code rest => .response (withTrailer (bodyRsExc a fc code rest))

/-- The expected code with which the host decodes the minimal frame of a function-code byte: the code itself
for the two write codes, 0x03 for every other byte (RS_EXC is decoded under any expected code, R52). -/
def hostCode (f : Byte) : Byte := if f = fcWr1 then fcWr1 else if f = fcWrn then fcWrn else fcRead

/-- The shortest response frame with function-code byte `f`, every operand field zero, under the trailer its
format requires (log 13): the opcode table gives a frame row the function-code byte alone. -/
def minimalFrame (f : Byte) : List Byte :=
  if f = fcWr1 ∨ f = fcWrn then withTrailer [0#8, f, 0#8, 0#8, 0#8, 0#8] else withTrailer [0#8, f, 0#8]

/-- The instruction the decoder reads from the bits the opcode table numbers: a command row gives 16 bits,
the command word; a frame row gives one byte, the function code at offset 1 of a frame (whatever length is
put above it with zeros), and the decoder, which decodes response frames only (30_encoding R54), reads the
minimal response frame of that byte (log 13). -/
def decodeTableWord (nbits w : Nat) : Option Instr :=
  if 2 ^ nbits ≤ w then none
  else if nbits = 16 then (decode (.command (BitVec.ofNat 16 w))).toOption
  else if nbits % 8 = 0 ∧ w < 256 then (decode (.response (minimalFrame (BitVec.ofNat 8 w)))).toOption
  else none

end Sys2Proof
end

