-- ==== Sys2Proof/Machine/State.lean ====
section
/-! DEFINITION. The state of the block (spec 10_state R11), the host's side of it, the outcomes of a step
that are no next state, and the state after reset (70_reset R135). Plain data throughout. -/

namespace Sys2Proof.Machine

/-- An address space of the block (20_memory R30): (index, value) pairs, indexes strictly rising
(`Memory.wf`); an unlisted index holds no value, nothing having written it (10_state R24). For bytes the
pairs are `Host.Cell`. -/
abbrev Memory (w : Nat) := List (Nat × BitVec w)

/-- `STATUS` (10_state R18) as the enumerated type that rule allows; its 4-bit codes are `Status.code`. -/
inductive Status where
  | none
  | ok
  | shortRead
  | crcMismatch
  | exceptionResponse
  | unexpectedFunctionCode
  | malformedFrame
deriving DecidableEq, Repr

/-- What the host does to the block, one at a time: a bus request as it stands on the request channel
(10_state R28: kind 0 RD, 1 WR, 2 CMD, 3 reserved), or the reset input (70_reset R135). -/
inductive HostEvent where
  | request (kind : BitVec 2) (addr : BitVec 12) (data : Word)
  | reset
deriving DecidableEq, Repr

/-- What the host is answered (10_state R28): `rsp_data`, the read data or 0, and `rsp_refused`. -/
structure BusResponse where
  data : Word
  refused : Bool
deriving DecidableEq, Repr

/-- The block's state (10_state R11) and, after it, four fields of the model's own (log 1, 5, 8, 9). -/
structure State where
  /-- `SLAVE` (R12). -/
  slave : Byte
  /-- `ADDR` (R14). -/
  addr : Word
  /-- `ARG` (R15). -/
  arg : Word
  /-- `WDATA[i]` (R16); unlisted: never written (R24). -/
  wdata : Memory 16
  /-- `CRC` (R17). -/
  crc : Word
  /-- `STATUS` (R18). -/
  status : Status
  /-- `EXC` (R19). -/
  exc : Byte
  /-- `PCOUNT` (R20). -/
  pcount : BitVec 8
  /-- `PWORD[i]` (R21); defined for `i < PCOUNT` (R24). -/
  pword : Memory 16
  /-- `TXLEN` (R22), a natural number at most FRAME_MAX (log 10). -/
  txlen : Nat
  /-- `TXBUF[i]` (R22); defined for `i < TXLEN` (R24). -/
  txbuf : List Host.Cell
  /-- `RXLEN` (R23), a natural number at most FRAME_MAX (log 10). -/
  rxlen : Nat
  /-- `RXBUF[i]` (R23); defined for `i < RXLEN` (R24). -/
  rxbuf : List Host.Cell
  /-- The implementation parameters (00_scope R5); no step changes them. -/
  params : Params
  /-- The host's events not yet taken, oldest first (70_reset R138: a finite list of bus operations). -/
  events : List HostEvent
  /-- What the host was last answered (10_state R27, R28). -/
  rsp : Option BusResponse
  /-- How many free values have been drawn (10_state R24). -/
  draws : Nat
deriving DecidableEq, Repr

/-- The block has no fault: "Nothing in the block is a `fault` or `stuck`" (93_implementation_defined
section 1). No constructor, so no step can answer a fault. -/
inductive Fault where
deriving DecidableEq, Repr

/-- Why a command is not accepted (30_encoding R57). All are safe: no state is made up. None ends a run: step
reports it to the host and goes on (10_state R27, log 3). -/
inductive Refusal where
  /-- An instruction with no meaning yet; no arm of exec answers it. Safe. -/
  | notModelled (mnemonic : String)
  /-- ENC_WRN, RQ_WRN, RS_WRN, DEC 0x10 where HAS_FC10 is false (30_encoding R57). Safe. -/
  | fc10Absent
  /-- ENC_WRN with ARG = 0 or ARG > WMAX, RQ_WRN with so many words (30_encoding R57, 41_encode R79). Safe. -/
  | wordCount
  /-- RX_BYTE on a full buffer (30_encoding R57, 42_decode R87). Safe. -/
  | rxFull
  /-- DEC with an immediate outside 0x03, 0x06, 0x10 (30_encoding R57, 42_decode R89). Safe. -/
  | expectedCode
  /-- A response frame given as an instruction that is longer than RXBUF or PWORD can hold (log 12). Safe. -/
  | responseTooLong
deriving DecidableEq, Repr

/-- The block right after reset (10_state R11, 70_reset R135): every scalar register at the spec's value, no
element of an array written, the parameters at the defaults of 00_scope R5; the host has issued nothing. -/
def State.reset : State where
  slave := 0x00#8
  addr := 0x0000#16
  arg := 0x0000#16
  wdata := []
  crc := 0xFFFF#16
  status := .none
  exc := 0x00#8
  pcount := 0#8
  pword := []
  txlen := 0
  txbuf := []
  rxlen := 0
  rxbuf := []
  params := {}
  events := []
  rsp := Option.none
  draws := 0

end Sys2Proof.Machine
end

