-- ==== Sys2Proof/Machine/Flags.lean ====
section
/-! DEFINITION. STATUS, the block's only condition code (spec 10_state R18), and what an error records in it
and in EXC (60_exceptions R115, R121). -/

namespace Sys2Proof.Machine

/-- The numeric codes of STATUS (10_state R18). -/
def Status.code : Status → BitVec 4
  | .none => 0#4
  | .ok => 1#4
  | .shortRead => 2#4
  | .crcMismatch => 3#4
  | .exceptionResponse => 4#4
  | .unexpectedFunctionCode => 5#4
  | .malformedFrame => 6#4

/-- The STATUS value of an error (60_exceptions R115). -/
def errorStatus : ModbusError → Status
  | .shortRead => .shortRead
  | .crcMismatch => .crcMismatch
  | .exceptionResponse _ => .exceptionResponse
  | .unexpectedFunctionCode => .unexpectedFunctionCode
  | .malformedFrame => .malformedFrame

/-- The EXC value of an error: the device's code for ExceptionResponse, 0x00 otherwise (60_exceptions R121). -/
def errorInfo : ModbusError → Byte
  | .shortRead => 0x00#8
  | .crcMismatch => 0x00#8
  | .exceptionResponse code => code
  | .unexpectedFunctionCode => 0x00#8
  | .malformedFrame => 0x00#8

end Sys2Proof.Machine
end

