-- ==== Sys2Proof/Machine/Ops.lean ====
section
/-! DEFINITION. The named operations: reads and writes of an address space (spec 20_memory R30, R38), the
frame in RXBUF, building a frame in TXBUF (41_encode R75), delivering a payload (42_decode R90, R93, R94) and
raising an error (60_exceptions R121). There is no return from an error to model: "there is no return
instruction and nothing to restore" (60_exceptions R122). -/

namespace Sys2Proof.Machine

/-- The canonical form of an address space: indexes strictly rising. No listed value equals what an unlisted
index reads as, since an unlisted index holds no value (log 7). -/
abbrev Memory.wf {w : Nat} (m : Memory w) : Prop := m.Pairwise (fun a b => a.1 < b.1)

/-- What an index of an address space holds; `none` where nothing has been written (10_state R24). -/
def memFind {w : Nat} : Memory w → Nat → Option (BitVec w)
  | [], _ => none
  | (k, v) :: m, i => if k = i then some v else memFind m i

/-- `B[i] <- b` (00_scope R8). -/
def memWrite {w : Nat} : Memory w → Nat → BitVec w → Memory w
  | [], i, b => [(i, b)]
  | (k, v) :: m, i, b =>
    if i < k then (i, b) :: (k, v) :: m
    else if i = k then (i, b) :: m
    else (k, v) :: memWrite m i b

/-- Values written to consecutive indexes from `i` up, as every command writes its buffer (10_state
R13 (b): the byte position runs upward from offset 0). -/
def memWriteAll {w : Nat} : Memory w → Nat → List (BitVec w) → Memory w
  | m, _, [] => m
  | m, i, b :: bs => memWriteAll (memWrite m i b) (i + 1) bs

/-- The byte `RXBUF[i]` as DEC reads it. A byte nothing has written is a free value (log 6); below RXLEN no
run from reset has one. -/
def rxByteAt (s : State) (i : Nat) : Byte := (memFind s.rxbuf i).getD (Config.unwrittenByte i)

/-- `RXBUF[0..RXLEN)`, the `raw_bytes` of `decode_response` (10_state R23). -/
def rxFrame (s : State) : List Byte := (List.range s.rxlen).map (rxByteAt s)

/-- The register `WDATA[i]` as ENC_WRN reads it: the word the host wrote or, where it wrote none, the free
value drawn for it (10_state R24: "may read as any value"; log 4). -/
def wdataAt (s : State) (i : Nat) : Word := (memFind s.wdata i).getD (Config.freeDraw (s.draws + i))

/-- `WDATA[0..n)` as ENC_WRN reads it (41_encode R79). -/
def wdataWords (s : State) (n : Nat) : List Word := (List.range n).map (wdataAt s)

/-- How many draws the reading of `WDATA[0..n)` uses up: none where every element was written. -/
def wdataDraws (s : State) (n : Nat) : Nat :=
  if (List.range n).all (fun i => (memFind s.wdata i).isSome) then 0 else n

/-- `k` free values have been drawn. -/
def drawValues (k : Nat) (s : State) : State := { s with draws := s.draws + k }

/-- What the encoders share (41_encode R75): the body and its CRC, low byte first, go to TXBUF from offset 0;
TXLEN is the frame's length; CRC is the CRC appended. -/
def buildFrame (body : List Byte) (s : State) : State :=
  { s with
    txbuf := memWriteAll s.txbuf 0 (withTrailer body)
    txlen := (withTrailer body).length
    crc := crc16 body }

/-- A successful DEC's result (42_decode R90, R93, R94): the payload words, their number, EXC 0x00, OK. -/
def deliver (words : List Word) (s : State) : State :=
  { s with
    pword := memWriteAll s.pword 0 words
    pcount := BitVec.ofNat 8 words.length
    exc := 0x00#8
    status := .ok }

/-- `raise X(info)` (60_exceptions R121), the block's taking of an exception: STATUS, EXC and PCOUNT are
written, nothing else. -/
def raiseError (e : ModbusError) (s : State) : State :=
  { s with status := errorStatus e, exc := errorInfo e, pcount := 0#8 }

/-- `CRC <- c`. -/
def setCrc (c : Word) (s : State) : State := { s with crc := c }

/-- What DEC does with a response it has taken apart (42_decode R90 to R94): an exception response is raised
as an error, the others return their payload. -/
def applyResponse : Response → State → State
  | .read _ words, s => deliver words s
  | .wr1 _ reg val, s => deliver [reg, val] s
  | .wrn _ start n, s => deliver [start, n] s
  | .exc _ _ code _, s => raiseError (.exceptionResponse code) s

/-- A response frame met by DEC: CRC takes the CRC of the frame's body (42_decode R90 step 2), then the
frame has its effect. -/
def takeResponse (r : Response) (s : State) : State := applyResponse r (setCrc (crc16 r.body) s)

end Sys2Proof.Machine
end

