-- ==== Sys2Proof/Machine/CrcCommands.lean ====
section
/-! DEFINITION. The CRC family: CRC_INIT and CRC_BYTE (spec 40_crc section 2). -/

namespace Sys2Proof.Machine

/-- CRC_INIT (40_crc R68): `CRC <- 0xFFFF`; the immediate is ignored; never refused. -/
def execCrcInit (_imm : Byte) (s : State) : Host.Outcome State Fault Refusal :=
  .next (setCrc crcStart s)

/-- CRC_BYTE (40_crc R69): `CRC <- crc_step(CRC, imm8)`; never refused. -/
def execCrcByte (imm : Byte) (s : State) : Host.Outcome State Fault Refusal :=
  .next (setCrc (crcStep s.crc imm) s)

end Sys2Proof.Machine
end

