-- ==== Sys2Proof/Machine/DecCommands.lean ====
section
/-! DEFINITION. The decoder family: RX_CLEAR, RX_BYTE, DEC (spec 42_decode). -/

namespace Sys2Proof.Machine

/-- RX_CLEAR (42_decode R86): `RXLEN <- 0`; the bytes of RXBUF are not erased, only no longer defined. -/
def execRxClear (_imm : Byte) (s : State) : Host.Outcome State Fault Refusal :=
  .next { s with rxlen := 0 }

/-- RX_BYTE (42_decode R87): the byte goes to `RXBUF[RXLEN]`; refused when the buffer is full. The rule's
`RXLEN = FRAME_MAX` is written as "not below" (log 18). -/
def execRxByte (imm : Byte) (s : State) : Host.Outcome State Fault Refusal :=
  if s.params.frameMax ≤ s.rxlen then .refused .rxFull
  else .next { s with rxbuf := memWrite s.rxbuf s.rxlen imm, rxlen := s.rxlen + 1 }

/-- Steps 1 and 2 of DEC write CRC when RXLEN is 5 or more, and only then (42_decode R90, 92 D20). -/
def decCrc (s : State) : State :=
  if s.rxlen < 5 then s else setCrc (crc16 (frameBody (rxFrame s))) s

/-- The five steps of DEC under an admitted expected code (42_decode R90): CRC, then the error raised or the
response's effect. -/
def decFrame (e : Byte) (s : State) : State :=
  match decodeResponse e (rxFrame s) with
  | .error err => raiseError err (decCrc s)
  | .ok r => applyResponse r (decCrc s)

/-- DEC (42_decode R89, R90); a refused DEC changes nothing. -/
def execDec (imm : Byte) (s : State) : Host.Outcome State Fault Refusal :=
  if imm ≠ fcRead ∧ imm ≠ fcWr1 ∧ imm ≠ fcWrn then .refused .expectedCode
  else if imm = fcWrn ∧ s.params.hasFc10 = false then .refused .fc10Absent
  else .next (decFrame imm s)

end Sys2Proof.Machine
end

