-- ==== Sys2Proof/Machine/EncCommands.lean ====
section
/-! DEFINITION. The encoder family: ENC_READ, ENC_WR1, ENC_WRN (spec 41_encode section 2). The function code
is fixed by the command (R77). -/

namespace Sys2Proof.Machine

/-- ENC_READ (41_encode R76): RQ_READ from SLAVE, ADDR, ARG; never refused, no range check. -/
def execEncRead (_imm : Byte) (s : State) : Host.Outcome State Fault Refusal :=
  .next (buildFrame (bodyRqRead s.slave s.addr s.arg) s)

/-- ENC_WR1 (41_encode R78): RQ_WR1 from SLAVE, ADDR, ARG; never refused, no range check. -/
def execEncWr1 (_imm : Byte) (s : State) : Host.Outcome State Fault Refusal :=
  .next (buildFrame (bodyRqWr1 s.slave s.addr s.arg) s)

/-- ENC_WRN (41_encode R79): RQ_WRN from SLAVE, ADDR and the ARG words of WDATA, with the refusals in the
rule's order. Over an element never written "real hardware would encode whatever the storage happens to hold";
so does the model, with a free value for that word, where the rule lets a model refuse (log 4). -/
def execEncWrn (_imm : Byte) (s : State) : Host.Outcome State Fault Refusal :=
  if s.params.hasFc10 = false then .refused .fc10Absent
  else if s.arg.toNat = 0 ∨ s.params.wmax < s.arg.toNat then .refused .wordCount
  else .next (buildFrame (bodyRqWrn s.slave s.addr (wdataWords s s.arg.toNat))
    (drawValues (wdataDraws s s.arg.toNat) s))

end Sys2Proof.Machine
end

