-- ==== Sys2Proof/Machine/Frames.lean ====
section
/-! DEFINITION. The seven frame rows of the opcode table as instructions (spec 30_encoding R45 to R52; log
12). A request's meaning is that the block builds it in TXBUF, with the frame's own fields where ENC_* takes
SLAVE, ADDR, ARG and WDATA (30_encoding R53). A response's meaning is what DEC does when it finds that frame
in RXBUF under the row's own function code. -/

namespace Sys2Proof.Machine

/-- RQ_READ (30_encoding R46), built as ENC_READ builds it (41_encode R76). -/
def execRqRead (a : Byte) (start count : Word) (s : State) : Host.Outcome State Fault Refusal :=
  .next (buildFrame (bodyRqRead a start count) s)

/-- RQ_WR1 (30_encoding R47), built as ENC_WR1 builds it (41_encode R78). -/
def execRqWr1 (a : Byte) (reg val : Word) (s : State) : Host.Outcome State Fault Refusal :=
  .next (buildFrame (bodyRqWr1 a reg val) s)

/-- RQ_WRN (30_encoding R48), built as ENC_WRN builds it, under the same conditions (41_encode R79). -/
def execRqWrn (a : Byte) (start : Word) (data : List Word) (s : State) : Host.Outcome State Fault Refusal :=
  if s.params.hasFc10 = false then .refused .fc10Absent
  else if data.length = 0 ∨ s.params.wmax < data.length then .refused .wordCount
  else .next (buildFrame (bodyRqWrn a start data) s)

/-- RS_READ (30_encoding R49), taken apart by DEC 0x03 (42_decode R93). More words than PMAX cannot stand in
RXBUF (20_memory R37). -/
def execRsRead (a : Byte) (words : List Word) (s : State) : Host.Outcome State Fault Refusal :=
  if s.params.pmax < words.length then .refused .responseTooLong
  else .next (takeResponse (.read a words) s)

/-- RS_WR1 (30_encoding R50), taken apart by DEC 0x06 (42_decode R94). -/
def execRsWr1 (a : Byte) (reg val : Word) (s : State) : Host.Outcome State Fault Refusal :=
  .next (takeResponse (.wr1 a reg val) s)

/-- RS_WRN (30_encoding R51), taken apart by DEC 0x10 (42_decode R94); present only with HAS_FC10. -/
def execRsWrn (a : Byte) (start n : Word) (s : State) : Host.Outcome State Fault Refusal :=
  if s.params.hasFc10 = false then .refused .fc10Absent
  else .next (takeResponse (.wrn a start n) s)

/-- RS_EXC (30_encoding R52), reported by DEC under any expected code (42_decode R91): the block takes the
error ExceptionResponse. A frame longer than FRAME_MAX cannot stand in RXBUF (42_decode R87). -/
def execRsExc (a : Byte) (fc : BitVec 7) (code : Byte) (rest : List Byte) (s : State) :
    Host.Outcome State Fault Refusal :=
  if s.params.frameMax < 5 + rest.length then .refused .responseTooLong
  else .next (takeResponse (.exc a fc code rest) s)

end Sys2Proof.Machine
end

