-- ==== Sys2Proof/Machine/Dispatch.lean ====
section
/-! DEFINITION. One arm per row of spec/opcode_table.json, each a call of its meaning. -/

namespace Sys2Proof.Machine

/-- The meaning of every instruction. -/
def exec (i : Instr) (s : State) : Host.Outcome State Fault Refusal :=
  match i with
  | .crcInit imm => Sys2Proof.Machine.execCrcInit imm s
  | .crcByte imm => Sys2Proof.Machine.execCrcByte imm s
  | .encRead imm => Sys2Proof.Machine.execEncRead imm s
  | .encWr1 imm => Sys2Proof.Machine.execEncWr1 imm s
  | .encWrn imm => Sys2Proof.Machine.execEncWrn imm s
  | .rxClear imm => Sys2Proof.Machine.execRxClear imm s
  | .rxByte imm => Sys2Proof.Machine.execRxByte imm s
  | .dec imm => Sys2Proof.Machine.execDec imm s
  | .rqRead addr start count => Sys2Proof.Machine.execRqRead addr start count s
  | .rqWr1 addr reg val => Sys2Proof.Machine.execRqWr1 addr reg val s
  | .rqWrn addr start data => Sys2Proof.Machine.execRqWrn addr start data s
  | .rsRead addr words => Sys2Proof.Machine.execRsRead addr words s
  | .rsWr1 addr reg val => Sys2Proof.Machine.execRsWr1 addr reg val s
  | .rsWrn addr start n => Sys2Proof.Machine.execRsWrn addr start n s
  | .rsExc addr fc code rest => Sys2Proof.Machine.execRsExc addr fc code rest s

end Sys2Proof.Machine
end

