-- ==== Sys2Proof/Machine/Registers.lean ====
section
/-! DEFINITION. The registers as the host sees them (spec 10_state R11, R27, R29): their numbers, what RD
returns and what WR changes. -/

namespace Sys2Proof.Machine

/-- The registers by name (10_state R11). -/
inductive Reg where
  | slave
  | addr
  | arg
  | crc
  | status
  | exc
  | pcount
  | txlen
  | rxlen
  | wdata (i : Nat)
  | pword (i : Nat)
  | txbuf (i : Nat)
  | rxbuf (i : Nat)
deriving DecidableEq, Repr

/-- The scalar registers' numbers (10_state R29); 0x009 to 0x0FF are unassigned. -/
def scalarReg : Nat → Option Reg
  | 0 => some .slave
  | 1 => some .addr
  | 2 => some .arg
  | 3 => some .crc
  | 4 => some .status
  | 5 => some .exc
  | 6 => some .pcount
  | 7 => some .txlen
  | 8 => some .rxlen
  | _ => none

/-- The register of a number (10_state R29), none where it is unassigned. WDATA is present only with
HAS_FC10 (R16). -/
def regOf (p : Params) (n : Nat) : Option Reg :=
  if n < 0x100 then scalarReg n
  else if n < 0x180 then
    if p.hasFc10 = true ∧ n - 0x100 < p.wmax then some (.wdata (n - 0x100)) else none
  else if n < 0x200 then
    if n - 0x180 < p.pmax then some (.pword (n - 0x180)) else none
  else if n < 0x400 then
    if n - 0x200 < p.frameMax then some (.txbuf (n - 0x200)) else none
  else if n - 0x400 < p.frameMax then some (.rxbuf (n - 0x400))
  else none

/-- The register's value zero-extended to 16 bits (10_state R27), none where it holds no defined value
(R24). -/
def readReg (s : State) : Reg → Option Word
  | .slave => some (zext16 s.slave)
  | .addr => some s.addr
  | .arg => some s.arg
  | .crc => some s.crc
  | .status => some (s.status.code.setWidth 16)
  | .exc => some (zext16 s.exc)
  | .pcount => some (zext16 s.pcount)
  | .txlen => some (BitVec.ofNat 16 s.txlen)
  | .rxlen => some (BitVec.ofNat 16 s.rxlen)
  | .wdata i => memFind s.wdata i
  | .pword i => if i < s.pcount.toNat then memFind s.pword i else none
  | .txbuf i => if i < s.txlen then (memFind s.txbuf i).map zext16 else none
  | .rxbuf i => if i < s.rxlen then (memFind s.rxbuf i).map zext16 else none

/-- The n-th free value as a read returns it: any byte, zero-extended, for a buffer element, any word
otherwise (10_state R24, R27, R29; log 5). -/
def freeRead : Option Reg → Nat → Word
  | some (.txbuf _), n => zext16 (lo (Config.freeDraw n))
  | some (.rxbuf _), n => zext16 (lo (Config.freeDraw n))
  | _, n => Config.freeDraw n

/-- `WR` to a register (10_state R27): the value truncated to the width; a read-only register is unchanged. -/
def writeReg (v : Word) (s : State) : Reg → State
  | .slave => { s with slave := lo v }
  | .addr => { s with addr := v }
  | .arg => { s with arg := v }
  | .wdata i => { s with wdata := memWrite s.wdata i v }
  | .crc => s
  | .status => s
  | .exc => s
  | .pcount => s
  | .txlen => s
  | .rxlen => s
  | .pword _ => s
  | .txbuf _ => s
  | .rxbuf _ => s

end Sys2Proof.Machine
end

