-- ==== Sys2Proof/Machine/Bus.lean ====
section
/-! DEFINITION. The host's bus operations (spec 10_state R27, R28), the report of a refused command, the
reset input (70_reset R135), and one event taken from the host's list. -/

namespace Sys2Proof.Machine

/-- The host is answered. -/
def respond (data : Word) (refused : Bool) (s : State) : State :=
  { s with rsp := some { data := data, refused := refused } }

/-- "A refused command changes no state and is reported to the host as refused" (10_state R27). -/
def turnAway (s : State) : State := respond 0x0000#16 true s

/-- What the bus makes of a command's outcome: an accepted command is answered with data 0 (10_state R28);
a refused one leaves `s`, the state it was issued in, as it was, and the host is told (log 3). -/
def finishCommand (s : State) : Host.Outcome State Fault Refusal → Host.Outcome State Fault Refusal
  | .next t => .next (respond 0x0000#16 false t)
  | .fault f => .fault f
  | .refused _ => .next (turnAway s)

/-- `CMD cw` (10_state R27): the command word is decoded and run, or refused. -/
def serveCommand (cw : Word) (s : State) : Host.Outcome State Fault Refusal :=
  match decodeCommand cw with
  | .error _ => .next (turnAway s)
  | .ok i => finishCommand s (exec i s)

/-- `RD` of a register number (10_state R27, R29): the value, or a free value where none is defined. -/
def serveRead (n : Nat) (s : State) : State :=
  match (regOf s.params n).bind (readReg s) with
  | some v => respond v false s
  | none => respond (freeRead (regOf s.params n) s.draws) false { s with draws := s.draws + 1 }

/-- `WR` to a register number (10_state R27, R29): an unassigned number changes nothing. -/
def serveWrite (n : Nat) (v : Word) (s : State) : State :=
  match regOf s.params n with
  | some r => respond 0x0000#16 false (writeReg v s r)
  | none => respond 0x0000#16 false s

/-- A bus request by its kind (10_state R28): 0 RD, 1 WR, 2 CMD, 3 reserved and refused. -/
def serveRequest (kind : BitVec 2) (addr : BitVec 12) (data : Word) (s : State) :
    Host.Outcome State Fault Refusal :=
  match kind.toNat with
  | 0 => .next (serveRead addr.toNat s)
  | 1 => .next (serveWrite addr.toNat data s)
  | 2 => serveCommand data s
  | _ => .next (turnAway s)

/-- The reset input (70_reset R135): the block's state becomes the reset state whatever it was. What is not
the block's stays: the parameters, the host's list, the count of free values. -/
def applyReset (s : State) : State :=
  { State.reset with params := s.params, events := s.events, draws := s.draws }

/-- One event of the host. -/
def serveEvent (ev : HostEvent) (s : State) : Host.Outcome State Fault Refusal :=
  match ev with
  | .request kind addr data => serveRequest kind addr data s
  | .reset => .next (applyReset s)

/-- The host's oldest event is taken and served; with none, the block is idle and keeps all its state
(10_state R10, 60_exceptions R130; log 2). -/
def serveNext (s : State) : Host.Outcome State Fault Refusal :=
  match s.events with
  | [] => .next s
  | ev :: rest => serveEvent ev { s with events := rest }

/-- The host's request to run a command word (10_state R28; the address is ignored for CMD). -/
def commandEvent (cw : Word) : HostEvent := .request 2#2 0#12 cw

/-- The host issues a command word before everything it was to issue next. -/
def issueCommand (cw : Word) (s : State) : State := { s with events := commandEvent cw :: s.events }

/-- A frame standing whole in RXBUF. -/
def loadFrame (f : List Byte) (s : State) : State :=
  { s with rxbuf := memWriteAll s.rxbuf 0 f, rxlen := f.length }

/-- The next instruction placed for step (log 1, log 13): 16 bits are a command word, which the host issues
next; one byte, with nothing but zeros above it, is a response frame's function code, whose minimal frame is
loaded and whose DEC the host issues next. -/
def placeWord (s : State) (nbits w : Nat) : State :=
  if nbits = 16 then issueCommand (BitVec.ofNat 16 w) s
  else if nbits % 8 = 0 ∧ w < 256 then
    issueCommand (commandWord 7#3 (hostCode (BitVec.ofNat 8 w))) (loadFrame (minimalFrame (BitVec.ofNat 8 w)) s)
  else s

end Sys2Proof.Machine
end

