-- ==== Sys2Proof/Machine/HostLayers.lean ====
section
/-! DEFINITION. The host around the block (spec 43_host_layers R100 to R113, 30_encoding R61, 60_exceptions
R115 to R119): the pseudo-instructions, the Register Map, the value encodings, the Transaction Engine, the Device
Client. Nothing here is state of the block (R100); the host's parameters and the transport are arguments, since
the spec leaves them to the host (log 17). -/

namespace Sys2Proof.Machine

/-- `WR` to a register number (30_encoding R60, 10_state R29). -/
def wrEvent (n : BitVec 12) (v : Word) : HostEvent := .request 1#2 n v

/-- `RD` of a register number (30_encoding R60, 10_state R29). -/
def rdEvent (n : BitVec 12) : HostEvent := .request 0#2 n 0#16

/-- The number of `WDATA[i]` (10_state R29). No block has an element at or beyond 128 (00_scope R5), so a WR to
one changes nothing (10_state R27); it goes to the unassigned number 0x009, of which R29 says the same (log 23). -/
def wdataNumber (i : Nat) : BitVec 12 := if i < 0x80 then BitVec.ofNat 12 (0x100 + i) else 0x009#12

/-- The command line of an instruction (30_encoding R60). -/
def cmdEvent (op : BitVec 3) (imm : Byte) : HostEvent := commandEvent (commandWord op imm)

/-- `CRC_COMPUTE b0 ... bn-1` (30_encoding R61). -/
def crcComputeEvents (bs : List Byte) : List HostEvent := cmdEvent 0#3 0#8 :: bs.map (cmdEvent 1#3)

/-- The operand writes the three encoders' expansions begin with (30_encoding R61). -/
def operandEvents (a : Byte) (addr arg : Word) : List HostEvent :=
  [wrEvent 0 (zext16 a), wrEvent 1 addr, wrEvent 2 arg]

/-- `ENCODE_READ a, s, c` (30_encoding R61). -/
def encodeReadEvents (a : Byte) (start count : Word) : List HostEvent :=
  operandEvents a start count ++ [cmdEvent 2#3 0#8]

/-- `ENCODE_WRITE_SINGLE a, r, v` (30_encoding R61). -/
def encodeWriteSingleEvents (a : Byte) (reg val : Word) : List HostEvent :=
  operandEvents a reg val ++ [cmdEvent 3#3 0#8]

/-- `WR WDATA[i], w` for words from index `i` up. -/
def wdataEvents : Nat → List Word → List HostEvent
  | _, [] => []
  | i, w :: ws => wrEvent (wdataNumber i) w :: wdataEvents (i + 1) ws

/-- `ENCODE_WRITE_MULTIPLE a, s, w0 ... wn-1` (30_encoding R61). -/
def encodeWriteMultipleEvents (a : Byte) (start : Word) (data : List Word) : List HostEvent :=
  operandEvents a start (BitVec.ofNat 16 data.length) ++ (wdataEvents 0 data ++ [cmdEvent 4#3 0#8])

/-- `RX_LOAD b0 ... bn-1` (30_encoding R61). -/
def rxLoadEvents (bs : List Byte) : List HostEvent := cmdEvent 5#3 0#8 :: bs.map (cmdEvent 6#3)

/-- `DECODE_RESPONSE E, b0 ... bn-1` (30_encoding R61). -/
def decodeResponseEvents (e : Byte) (bs : List Byte) : List HostEvent := rxLoadEvents bs ++ [cmdEvent 7#3 e]

/-- The host performs one event. No event is refused or faults; the two arms are there because the type has
them. -/
def hostDo (s : State) (ev : HostEvent) : State :=
  match serveEvent ev s with
  | .next t => t
  | .fault _ => s
  | .refused _ => s

/-- The host performs events in order (20_memory R41). -/
def hostRun (evs : List HostEvent) (s : State) : State := evs.foldl hostDo s

/-- What `RD` of `TXBUF[0..TXLEN)` returns, the bytes the host sends (41_encode R80). -/
def txFrame (s : State) : List Byte := (List.range s.txlen).filterMap (memFind s.txbuf)

/-- What `RD` of `PWORD[0..PCOUNT)` returns (10_state R21). -/
def payloadWords (s : State) : List Word := (List.range s.pcount.toNat).filterMap (memFind s.pword)

/-- `access` of a Register descriptor (43_host_layers R101); there is no write-only mode (90_conflicts C4). -/
inductive Access where
  | readOnly
  | readWrite
deriving DecidableEq, Repr

/-- `width: 1|2 words` of a Register descriptor (43_host_layers R101). -/
inductive RegWidth where
  | one
  | two
deriving DecidableEq, Repr

/-- The width as a word count. -/
def RegWidth.words : RegWidth → Word
  | .one => 1#16
  | .two => 2#16

/-- A Register descriptor (43_host_layers R101). -/
structure RegisterDesc where
  address : Word
  width : RegWidth
  encoding : ValueEncoding
  access : Access
deriving DecidableEq, Repr

/-- The Register Map, a table by logical name; its content is not in the spec (43_host_layers R101). -/
abbrev RegisterMap := List (String × RegisterDesc)

/-- The ten error kinds (60_exceptions R115): five of the host, five of the block. A TransportError carries
"whatever the transport reports"; DESIGN CHOICE (log 25): as a text. -/
inductive ErrorKind where
  | unknownRegister
  | readOnlyViolation
  | writeOnlyViolation
  | transportError (report : String)
  | timeout
  | block (e : ModbusError)
deriving DecidableEq, Repr

/-- `resolve(name)` (43_host_layers R102). -/
def resolve (m : RegisterMap) (name : String) : Except ErrorKind RegisterDesc :=
  match m.lookup name with
  | some d => .ok d
  | none => .error .unknownRegister

/-- DecodedValue of a RawValue (43_host_layers R103): exact division, 235 at scale 10 is 23.5. One word is 16
bits; DESIGN CHOICE (log 26): the RawValue of a two-word register is 32 bits, read by the same three rules. -/
def decodeValue {n : Nat} : ValueEncoding → BitVec n → ℚ
  | .unsigned16, r => (r.toNat : ℚ)
  | .signed16, r => (r.toInt : ℚ)
  | .fixedPoint scale, r => (r.toInt : ℚ) / scale

/-- A whole number as an unsigned RawValue, where it is one. -/
def rawOfNat? {n : Nat} (q : ℚ) : Option (BitVec n) :=
  if q.den = 1 ∧ 0 ≤ q.num ∧ q.num < 2 ^ n then some (BitVec.ofInt n q.num) else none

/-- A whole number as a two's-complement RawValue, where it is one. -/
def rawOfInt? {n : Nat} (q : ℚ) : Option (BitVec n) :=
  if q.den = 1 ∧ -2 ^ n ≤ 2 * q.num ∧ 2 * q.num < 2 ^ n then some (BitVec.ofInt n q.num) else none

/-- RawValue of a DecodedValue (43_host_layers R103); none where it is out of range or no multiple of
`1 / scale`, as no value is at scale 0: "a host model should `refuse` such a write" (93_implementation_defined
U7). -/
def encodeValue {n : Nat} : ValueEncoding → ℚ → Option (BitVec n)
  | .unsigned16, v => rawOfNat? v
  | .signed16, v => rawOfInt? v
  | .fixedPoint scale, v => if scale = 0 then none else rawOfInt? (v * scale)

/-- The RawValue of the two words of the two-word register at an address, the lower register's first; they
are its two halves (log 26), and which is the high one is free (log 24). -/
def joinWords (address w0 w1 : Word) : BitVec 32 := if Config.highWordFirst address then w0 ++ w1 else w1 ++ w0

/-- The two words of a RawValue in the order `joinWords` reads them. -/
def splitRaw (address : Word) (r : BitVec 32) : List Word :=
  if Config.highWordFirst address then [r.extractLsb' 16 16, r.extractLsb' 0 16]
  else [r.extractLsb' 0 16, r.extractLsb' 16 16]

/-- The payload of a read as the register's DecodedValue (43_host_layers R103, R107); a free value where the
spec does not say what it is: another number of words than the width, and scale 0 (log 24). -/
def decodeWords (d : RegisterDesc) (ws : List Word) : ℚ :=
  if d.encoding = .fixedPoint 0 then Config.unstatedValue d.encoding ws
  else
    match d.width, ws with
    | .one, [w] => decodeValue d.encoding w
    | .two, [w0, w1] => decodeValue d.encoding (joinWords d.address w0 w1)
    | .one, ws => Config.unstatedValue d.encoding ws
    | .two, ws => Config.unstatedValue d.encoding ws

/-- An invocation of the Transaction Engine is for a read or for a write of a value (43_host_layers R106). -/
inductive Operation where
  | read
  | write (v : ℚ)
deriving DecidableEq, Repr

/-- What the engine is asked: an operation on a register by its logical name (43_host_layers R102). -/
structure Invocation where
  name : String
  op : Operation
deriving DecidableEq, Repr

/-- The host's own parameters: the table (U4), the slave address (43_host_layers R111), `max_bytes` (U5) and the
timeout (U3), all of 93_implementation_defined. -/
structure HostConfig where
  registers : RegisterMap
  slave : Byte
  maxBytes : Nat
  duration : Nat
deriving DecidableEq, Repr

/-- The transport (43_host_layers R111), an oracle (93_implementation_defined U6): `write(bytes)` and
`read_with_timeout(max_bytes, duration)`, the second also given the bytes written in this exchange. An empty
answer is "no data before timeout". What a failure reports is a text (log 25). -/
structure Transport where
  write : List Byte → Except String Unit
  readWithTimeout : List Byte → Nat → Nat → Except String (List Byte)

/-- The access check (43_host_layers R104). Every register is readable, so WriteOnlyViolation cannot occur
(90_conflicts C4). -/
def checkAccess (d : RegisterDesc) : Operation → Except ErrorKind Unit
  | .read => .ok ()
  | .write _ =>
    match d.access with
    | .readOnly => .error .readOnlyViolation
    | .readWrite => .ok ()

/-- The write request of a register (41_encode R81): ENC_WR1 for one word, ENC_WRN for two. None where the host
must not issue it: a value with no RawValue of the register's width (U7), or two words where the block has no
function 0x10 or no room for them ("keep `1 <= ARG <= WMAX`", 70_reset R145). -/
def writeEvents (p : Params) (slave : Byte) (d : RegisterDesc) (v : ℚ) : Option (List HostEvent) :=
  match d.width with
  | .one => (encodeValue d.encoding v).map (encodeWriteSingleEvents slave d.address)
  | .two =>
    if p.hasFc10 = true ∧ 2 ≤ p.wmax then
      (encodeValue d.encoding v).map fun r => encodeWriteMultipleEvents slave d.address (splitRaw d.address r)
    else none

/-- The bus operations that build an operation's request (43_host_layers R109). -/
def requestEvents (p : Params) (slave : Byte) (d : RegisterDesc) : Operation → Option (List HostEvent)
  | .read => some (encodeReadEvents slave d.address d.width.words)
  | .write v => writeEvents p slave d v

/-- The states of the Transaction Engine (43_host_layers R105), with the request frame a Transaction holds and
what it ends with. -/
inductive TxnState where
  | idle
  | requestBuilt (frame : List Byte)
  | sent (frame : List Byte)
  | awaitingResponse (frame : List Byte)
  | decoded (words : List Word)
  | failed (e : ErrorKind)
deriving DecidableEq, Repr

/-- Idle to RequestBuilt (43_host_layers R106): resolve, check the access, build the frame. An operation that
must not be issued leaves the engine idle and the block untouched (log 17). -/
def buildRequest (cfg : HostConfig) (inv : Invocation) (s : State) : TxnState × State :=
  match resolve cfg.registers inv.name with
  | .error e => (.failed e, s)
  | .ok d =>
    match checkAccess d inv.op with
    | .error e => (.failed e, s)
    | .ok _ =>
      match requestEvents s.params cfg.slave d inv.op with
      | none => (.idle, s)
      | some evs => (.requestBuilt (txFrame (hostRun evs s)), hostRun evs s)

/-- The `max_bytes` the engine passes: the host's parameter (U5), and no more than RXBUF holds, since a host never
loads more (70_reset R145). -/
def replyBound (cfg : HostConfig) (s : State) : Nat := min cfg.maxBytes s.params.frameMax

/-- What the host makes of a DEC (43_host_layers R109): only STATUS OK succeeds, an error is propagated verbatim
(R107). A DEC that was refused, or that no STATUS answers for, decoded nothing, and the transaction has no
outcome (60_exceptions R123; log 17): the engine, which passes admitted codes only, never meets that case. -/
def decodeOutcome (frame : List Byte) (s : State) : TxnState :=
  if s.rsp.any (fun r => r.refused) then .awaitingResponse frame
  else
    match s.status with
    | .ok => .decoded (payloadWords s)
    | .shortRead => .failed (.block .shortRead)
    | .crcMismatch => .failed (.block .crcMismatch)
    | .exceptionResponse => .failed (.block (.exceptionResponse s.exc))
    | .unexpectedFunctionCode => .failed (.block .unexpectedFunctionCode)
    | .malformedFrame => .failed (.block .malformedFrame)
    | .none => .awaitingResponse frame

/-- AwaitingResponse to Decoded or Failed (43_host_layers R107, R109): no byte is Timeout, and no DEC is issued
(60_exceptions R117); otherwise the bytes are loaded and decoded under the request's own function code. -/
def receiveReply (frame : List Byte) (s : State) : List Byte → TxnState × State
  | [] => (.failed .timeout, s)
  | b :: bs =>
    (decodeOutcome frame (hostRun (decodeResponseEvents (ownCode frame) (b :: bs)) s),
      hostRun (decodeResponseEvents (ownCode frame) (b :: bs)) s)

/-- One transition of the Transaction Engine (43_host_layers R105 to R107). A transaction that has ended stays
ended: nothing is retried (R108). -/
def txnStep (cfg : HostConfig) (tr : Transport) (inv : Invocation) : TxnState → State → TxnState × State
  | .idle, s => buildRequest cfg inv s
  | .requestBuilt f, s =>
    match tr.write f with
    | .error report => (.failed (.transportError report), s)
    | .ok _ => (.sent f, s)
  | .sent f, s => (.awaitingResponse f, s)
  | .awaitingResponse f, s =>
    match tr.readWithTimeout f (replyBound cfg s) cfg.duration with
    | .error report => (.failed (.transportError report), s)
    | .ok bytes => receiveReply f s (bytes.take (replyBound cfg s))
  | .decoded ws, s => (.decoded ws, s)
  | .failed e, s => (.failed e, s)

/-- `n` transitions. -/
def txnRun (cfg : HostConfig) (tr : Transport) (inv : Invocation) : Nat → TxnState × State → TxnState × State
  | 0, ts => ts
  | n + 1, ts => txnRun cfg tr inv n (txnStep cfg tr inv ts.1 ts.2)

/-- One invocation of the engine: from Idle through the four transitions, one exchange (43_host_layers R105,
R108). -/
def transact (cfg : HostConfig) (tr : Transport) (inv : Invocation) (s : State) : TxnState × State :=
  txnRun cfg tr inv 4 (.idle, s)

/-- The named operations of the Device Client (43_host_layers R110): "get_temperature, get/set_setpoint,
get/set_alarm_*, get/set_pid_*"; what stands for a star is an argument. -/
inductive ClientOp where
  | getTemperature
  | getSetpoint
  | setSetpoint (v : ℚ)
  | getAlarm (which : String)
  | setAlarm (which : String) (v : ℚ)
  | getPid (which : String)
  | setPid (which : String) (v : ℚ)
deriving DecidableEq, Repr

/-- The Register Map lookup and the engine call of a named operation (43_host_layers R110). DESIGN CHOICE (log
25): the logical names follow the examples of R101, "current_temperature", "setpoint", "alarm_high", "p_gain". -/
def ClientOp.invocation : ClientOp → Invocation
  | .getTemperature => { name := "current_temperature", op := .read }
  | .getSetpoint => { name := "setpoint", op := .read }
  | .setSetpoint v => { name := "setpoint", op := .write v }
  | .getAlarm which => { name := "alarm_" ++ which, op := .read }
  | .setAlarm which v => { name := "alarm_" ++ which, op := .write v }
  | .getPid which => { name := which ++ "_gain", op := .read }
  | .setPid which v => { name := which ++ "_gain", op := .write v }

/-- What a named operation returns (43_host_layers R110). A get gives the DecodedValue. The source does not say
what a set gives; DESIGN CHOICE (log 25): success and no value, the echoed words being left in PWORD. None: the
operation was not issued (log 17). -/
def clientAnswer (cfg : HostConfig) (inv : Invocation) : TxnState → Option (Except ErrorKind (Option ℚ))
  | .decoded ws =>
    match inv.op, resolve cfg.registers inv.name with
    | .read, .ok d => some (.ok (some (decodeWords d ws)))
    | .write _, _ => some (.ok none)
    | .read, .error e => some (.error e)
  | .failed e => some (.error e)
  | .idle => none
  | .requestBuilt _ => none
  | .sent _ => none
  | .awaitingResponse _ => none

/-- A named operation of the Device Client, with the block's state after it. -/
def perform (cfg : HostConfig) (tr : Transport) (op : ClientOp) (s : State) :
    Option (Except ErrorKind (Option ℚ)) × State :=
  (clientAnswer cfg op.invocation (transact cfg tr op.invocation s).1, (transact cfg tr op.invocation s).2)

end Sys2Proof.Machine
end

