-- ==== Sys2Proof/Safety.lean ====
section
/-! DEFINITION. The invariant of the machine, in the terms the claims use (spec 10_state R11, R18 to R24,
20_memory R37, 70_reset R143), and a run of the host's events. -/

namespace Sys2Proof.Machine

/-- Every index listed lies below a bound: no access leaves its index range (20_memory R37). -/
abbrev memBelow {w : Nat} (m : Memory w) (bound : Nat) : Prop := ∀ c ∈ m, c.1 < bound

/-- Every index below a bound is listed: the defined part of a buffer has been written (10_state R24). -/
abbrev memWritten {w : Nat} (m : Memory w) (bound : Nat) : Prop := ∀ i < bound, (memFind m i).isSome

/-- What every state of a run from reset satisfies. -/
structure State.Inv (s : State) : Prop where
  /-- The parameters are admitted (00_scope R5, 10_state R29). -/
  params : s.params.wf
  /-- Canonical form and index range of the four address spaces (20_memory R30, R37). -/
  txbuf : Memory.wf s.txbuf ∧ memBelow s.txbuf s.params.frameMax
  rxbuf : Memory.wf s.rxbuf ∧ memBelow s.rxbuf s.params.frameMax
  wdata : Memory.wf s.wdata ∧ memBelow s.wdata s.params.wmax
  pword : Memory.wf s.pword ∧ memBelow s.pword s.params.pmax
  /-- The defined part of each is inside its range and was written (10_state R20 to R24). -/
  txlen : s.txlen ≤ s.params.frameMax ∧ memWritten s.txbuf s.txlen
  rxlen : s.rxlen ≤ s.params.frameMax ∧ memWritten s.rxbuf s.rxlen
  pcount : s.pcount.toNat ≤ s.params.pmax ∧ memWritten s.pword s.pcount.toNat
  /-- EXC reads 0x00 unless STATUS is ExceptionResponse (70_reset R143). -/
  exc : s.status ≠ .exceptionResponse → s.exc = 0x00#8
  /-- A failed DEC returns no payload (60_exceptions R121). -/
  payload : s.status ≠ .ok → s.pcount = 0#8

/-- Commands one after another, each accepted: the state after the last, or none where one is refused. -/
def runCommands : List Instr → State → Option State
  | [], s => some s
  | i :: is, s =>
    match exec i s with
    | .next t => runCommands is t
    | _ => none

/-- The expected codes DEC admits (42_decode R89). -/
abbrev admitted (p : Params) (e : Byte) : Prop := e = 0x03#8 ∨ e = 0x06#8 ∨ (e = 0x10#8 ∧ p.hasFc10 = true)

/-- `t` is `s` with the frame of this body built in TXBUF (41_encode R75): the body and its CRC, low byte
first, stand at offsets 0 up, no other byte of TXBUF has changed, TXLEN is the frame's length, CRC the CRC
appended, and everything else is as it was. -/
abbrev Builds (body : List Byte) (s t : State) : Prop :=
  (∀ j, memFind t.txbuf j =
    if j < body.length + 2 then (body ++ [lo (crc16 body), hi (crc16 body)])[j]? else memFind s.txbuf j) ∧
  t.txlen = body.length + 2 ∧ t.crc = crc16 body ∧
  { t with txbuf := s.txbuf, txlen := s.txlen, crc := s.crc } = s

/-- `s` after an error (60_exceptions R121): STATUS, EXC and PCOUNT written, nothing else. -/
def failed (st : Status) (info : Byte) (s : State) : State :=
  { s with status := st, exc := info, pcount := 0#8 }

/-- `s` after a success with `n` payload words (42_decode R90, R93, R94): word `i` is the big-endian pair at
offsets `first + 2 * i` and `first + 2 * i + 1` of RXBUF. -/
def succeeded (first n : Nat) (s : State) : State :=
  { s with
    pword := memWriteAll s.pword 0
      ((List.range n).map fun i => be (rxByteAt s (first + 2 * i)) (rxByteAt s (first + 2 * i + 1)))
    pcount := BitVec.ofNat 8 n
    exc := 0x00#8
    status := .ok }

/-- The CRC over `RXBUF[0..RXLEN-2)` (42_decode R90 step 2). -/
def rxCrc (s : State) : Word := crc16 ((List.range (s.rxlen - 2)).map (rxByteAt s))

/-- `extract_read` as the rule writes it, on offsets of RXBUF (42_decode R93). -/
def readSpec (s : State) : State :=
  if (rxByteAt s 2).toNat ≠ s.rxlen - 5 then failed .malformedFrame 0x00#8 s
  else if (rxByteAt s 2).getLsbD 0 = true then failed .malformedFrame 0x00#8 s
  else succeeded 3 ((rxByteAt s 2).toNat / 2) s

/-- `extract_write` as the rule writes it (42_decode R94). -/
def writeSpec (s : State) : State :=
  if s.rxlen ≠ 8 then failed .malformedFrame 0x00#8 s else succeeded 2 2 s

/-- Steps 3 to 5 of DEC as the rule writes them, on offsets of RXBUF (42_decode R90). -/
def bodySpec (e : Byte) (s : State) : State :=
  if (rxByteAt s 1).getLsbD 7 = true then failed .exceptionResponse (rxByteAt s 2) s
  else if rxByteAt s 1 ≠ e then failed .unexpectedFunctionCode 0x00#8 s
  else if e = 0x03#8 then readSpec s
  else writeSpec s

/-- DEC as the rule writes it, step by step on offsets of RXBUF (42_decode R90), for the statement that the
meaning, written over byte lists, is this. -/
def decSpec (e : Byte) (s : State) : State :=
  if s.rxlen < 5 then failed .shortRead 0x00#8 s
  else if rxCrc s ≠ be (rxByteAt s (s.rxlen - 1)) (rxByteAt s (s.rxlen - 2)) then
    failed .crcMismatch 0x00#8 { s with crc := rxCrc s }
  else bodySpec e { s with crc := rxCrc s }

/-- The `Result<payload_words, ModbusError>` of `decode_response` (42_decode, opening paragraph). -/
def decodeResult (e : Byte) (bs : List Byte) : Except ModbusError (List Word) :=
  match decodeResponse e bs with
  | .error err => .error err
  | .ok (.read _ ws) => .ok ws
  | .ok (.wr1 _ r v) => .ok [r, v]
  | .ok (.wrn _ st n) => .ok [st, n]
  | .ok (.exc _ _ code _) => .error (.exceptionResponse code)

/-- The result registers say what `decode_response` returned (10_state R18 to R21, 60_exceptions R121). -/
def Reports (res : Except ModbusError (List Word)) (t : State) : Prop :=
  match res with
  | .ok ws => t.status = .ok ∧ t.exc = 0x00#8 ∧ t.pcount.toNat = ws.length ∧
      ∀ i < ws.length, memFind t.pword i = ws[i]?
  | .error err => t.status = errorStatus err ∧ t.exc = errorInfo err ∧ t.pcount = 0#8

/-- The expected code under which DEC takes a response's row: its own, any for an exception response. -/
def responseUnder (e : Byte) : Response → Prop
  | .read _ _ => e = 0x03#8
  | .wr1 _ _ _ => e = 0x06#8
  | .wrn _ _ _ => e = 0x10#8
  | .exc _ _ _ _ => True

/-- A response frame that can stand in RXBUF, with its payload in PWORD (20_memory R37). -/
def responseFits (p : Params) : Response → Prop
  | .read _ ws => ws.length ≤ p.pmax
  | .wr1 _ _ _ => True
  | .wrn _ _ _ => p.hasFc10 = true
  | .exc _ _ _ rest => 5 + rest.length ≤ p.frameMax

/-- What DEC reads besides its immediate (42_decode R85): RXLEN, the bytes of RXBUF below it, HAS_FC10. -/
abbrev sameReceived (s t : State) : Prop :=
  s.rxlen = t.rxlen ∧ (∀ i < s.rxlen, rxByteAt s i = rxByteAt t i) ∧ s.params.hasFc10 = t.params.hasFc10

/-- The instructions that write the result registers: DEC and the response rows (10_state R18). -/
def decodes : Instr → Bool
  | .crcInit _ => false
  | .crcByte _ => false
  | .encRead _ => false
  | .encWr1 _ => false
  | .encWrn _ => false
  | .rxClear _ => false
  | .rxByte _ => false
  | .dec _ => true
  | .rqRead _ _ _ => false
  | .rqWr1 _ _ _ => false
  | .rqWrn _ _ _ => false
  | .rsRead _ _ => true
  | .rsWr1 _ _ _ => true
  | .rsWrn _ _ _ => true
  | .rsExc _ _ _ _ => true

/-- The instructions that write the transmit buffer: ENC_* and the request rows (10_state R22). -/
def encodes : Instr → Bool
  | .crcInit _ => false
  | .crcByte _ => false
  | .encRead _ => true
  | .encWr1 _ => true
  | .encWrn _ => true
  | .rxClear _ => false
  | .rxByte _ => false
  | .dec _ => false
  | .rqRead _ _ _ => true
  | .rqWr1 _ _ _ => true
  | .rqWrn _ _ _ => true
  | .rsRead _ _ => false
  | .rsWr1 _ _ _ => false
  | .rsWrn _ _ _ => false
  | .rsExc _ _ _ _ => false

/-- The instructions that write the receive buffer: RX_CLEAR and RX_BYTE (10_state R23). -/
def receives : Instr → Bool
  | .crcInit _ => false
  | .crcByte _ => false
  | .encRead _ => false
  | .encWr1 _ => false
  | .encWrn _ => false
  | .rxClear _ => true
  | .rxByte _ => true
  | .dec _ => false
  | .rqRead _ _ _ => false
  | .rqWr1 _ _ _ => false
  | .rqWrn _ _ _ => false
  | .rsRead _ _ => false
  | .rsWr1 _ _ _ => false
  | .rsWrn _ _ _ => false
  | .rsExc _ _ _ _ => false

end Sys2Proof.Machine
end

