-- ==== Sys2Proof/WellFormed.lean ====
section
/-! DEFINITION. Which instructions are well formed: a command always is (30_encoding R55: `imm8` is used as
it stands or ignored); a frame is where its one-byte count field can say its length (30_encoding R48, R49)
and, for an exception response, where it is exactly 5 bytes (R52). -/

namespace Sys2Proof

/-- Well-formedness of an instruction as syntax. -/
def Instr.wellFormed : Instr → Bool
  | .crcInit _ => true
  | .crcByte _ => true
  | .encRead _ => true
  | .encWr1 _ => true
  | .encWrn _ => true
  | .rxClear _ => true
  | .rxByte _ => true
  | .dec _ => true
  | .rqRead _ _ _ => true
  | .rqWr1 _ _ _ => true
  | .rqWrn _ _ data => 1 ≤ data.length && data.length ≤ 127
  | .rsRead _ words => words.length ≤ 127
  | .rsWr1 _ _ _ => true
  | .rsWrn _ _ _ => true
  | .rsExc _ _ _ rest => rest.isEmpty

end Sys2Proof
end

