-- ==== Sys2Proof/Certificates/Slice0/Obligations.lean ====
section
/-! DEFINITION. The statements for the provers, family by family. -/

open Sys2Proof Sys2Proof.Machine

/-! ### The CRC engine (40_crc) -/

/-- 40_crc R68: for every immediate, CRC_INIT sets CRC to 0xFFFF, changes nothing else and is accepted; its word
is 0x0000; a RD of CRC then returns 0xFFFF. -/
def Obligations.CrcInitSetsRegister : Prop :=
  (∀ imm s, exec (.crcInit imm) s = .next { s with crc := 0xFFFF#16 }) ∧
  decodeCommand 0x0000#16 = .ok (.crcInit 0x00#8) ∧
  (∀ imm s t, exec (.crcInit imm) s = .next t →
    (serveRead 0x003 t).rsp = some { data := 0xFFFF#16, refused := false })

/-- 40_crc section 2, CRC_BYTE: it is accepted for every byte, takes CRC one `crc_step` on and changes nothing
else; its word is 0x0100 plus the byte; from 0xFFFF the byte 0x01 gives 0x807E. -/
def Obligations.CrcByteStepsRegister : Prop :=
  (∀ b s, exec (.crcByte b) s = .next { s with crc := crcStep s.crc b }) ∧
  (∀ b : Byte, decodeCommand (0x0100#16 + b.setWidth 16) = .ok (.crcByte b)) ∧
  (∀ s t, s.crc = 0xFFFF#16 → exec (.crcByte 0x01#8) s = .next t → t.crc = 0x807E#16)

/-- 40_crc sections 1 and 3, 95_test_vectors 2.1 to 2.3: worked values of `crc_step`, `crc16` and the table,
the catalogue's check value among them. -/
def Obligations.CrcKnownValues : Prop :=
  crcStep 0xFFFF#16 0x01#8 = 0x807E#16 ∧ crcStep 0xFFFF#16 0xFF#8 = 0x00FF#16 ∧
  crcStep 0x1234#16 0x56#8 = 0xE993#16 ∧ crcStep 0x8000#16 0x00#8 = 0x0080#16 ∧ crc16 [] = 0xFFFF#16 ∧
  crc16 [0x01, 0x03, 0x00, 0x00, 0x00, 0x01] = 0x0A84#16 ∧
  crc16 [0x31, 0x32, 0x33, 0x34, 0x35, 0x36, 0x37, 0x38, 0x39] = 0x4B37#16 ∧
  crcTable 0x01#8 = 0xC0C1#16 ∧ crcTable 0x80#8 = 0xA001#16 ∧ crcTable 0xFF#8 = 0x4040#16

/-- 40_crc section 3, table form: the engine equals the one that looks a byte up in the table. -/
def Obligations.CrcStepEqualsTableForm : Prop :=
  ∀ c b, crcStep c b = (c >>> 8) ^^^ crcTable (lo (c ^^^ zext16 b))

/-- 40_crc section 3, bit-serial form: the engine equals the shift register that takes the byte's bits from
bit 0 up. -/
def Obligations.CrcStepEqualsSerialForm : Prop :=
  ∀ c b, crcStep c b = crcStepSerial c b

/-- 40_crc section 4: `crc_step` is linear over XOR. -/
def Obligations.CrcStepIsLinear : Prop :=
  ∀ (c d : Word) (a b : Byte), crcStep (c ^^^ d) (a ^^^ b) = crcStep c a ^^^ crcStep d b

/-- 40_crc section 4: for a fixed byte `crc_step` permutes the register values, for a fixed register it tells
the bytes apart. -/
def Obligations.CrcStepLosesNothing : Prop :=
  (∀ b : Byte, Function.Bijective (fun c => crcStep c b)) ∧ (∀ c : Word, Function.Injective (crcStep c))

/-- 40_crc section 2: CRC_INIT and one CRC_BYTE per byte leave `crc16` of the bytes in CRC and all else alone,
from any state; from a state whose CRC is 0xFFFF (as after reset) the CRC_INIT may be omitted. -/
def Obligations.StreamedBytesGiveCrc16 : Prop :=
  (∀ imm bs s, runCommands (.crcInit imm :: bs.map .crcByte) s = some { s with crc := crc16 bs }) ∧
  (∀ bs s, s.crc = 0xFFFF#16 → runCommands (bs.map .crcByte) s = some { s with crc := crc16 bs })

/-- 40_crc section 5: the trailer matches exactly when the CRC over the whole frame is zero. -/
def Obligations.TrailerMatchesIffResidueZero : Prop :=
  ∀ f : List Byte, 2 ≤ f.length → (crcMatches f = true ↔ crc16 f = 0x0000#16)

/-! ### The encoders (41_encode) -/

/-- 41_encode R76: in every state and for every immediate ENC_READ is accepted and builds the frame `SLAVE 03
ADDR ARG` with its CRC, high bytes first in the fields, low byte first in the trailer; TXLEN is 8, CRC the CRC
appended, nothing else changes; its word is 0x0200; the golden frame's CRC is 0x0A84. -/
def Obligations.EncReadBuildsRequest : Prop :=
  (∀ imm s, ∃ t, exec (.encRead imm) s = .next t ∧ t.txlen = 8 ∧
    Builds [s.slave, 0x03#8, hi s.addr, lo s.addr, hi s.arg, lo s.arg] s t) ∧
  decodeCommand 0x0200#16 = .ok (.encRead 0x00#8) ∧
  crc16 [0x01, 0x03, 0x00, 0x00, 0x00, 0x01] = 0x0A84#16

/-- 41_encode R78: the same of ENC_WR1 and the frame `SLAVE 06 ADDR ARG`; its word is 0x0300; the example's
CRC is 0x4598. -/
def Obligations.EncWr1BuildsRequest : Prop :=
  (∀ imm s, ∃ t, exec (.encWr1 imm) s = .next t ∧ t.txlen = 8 ∧
    Builds [s.slave, 0x06#8, hi s.addr, lo s.addr, hi s.arg, lo s.arg] s t) ∧
  decodeCommand 0x0300#16 = .ok (.encWr1 0x00#8) ∧
  crc16 [0x01, 0x06, 0x00, 0x01, 0x00, 0xEB] = 0x4598#16

/-- 41_encode section 2, ENC_WRN: with function 0x10 present and `1 <= ARG <= WMAX` it is accepted and builds
`SLAVE 10 ADDR ARG 2*ARG` and the ARG words of WDATA, high bytes first; TXLEN is `9 + 2*ARG`; where all those words
were written nothing else changes. Over a word never written the model does not refuse, as the rule lets a model
do, but runs on a free value for that word (log 4), which uses up free values and changes nothing else. Without the
function, with ARG 0 or above WMAX, it is refused and every field but the host's answer stays as it was. -/
def Obligations.EncWrnBuildsRequestOrRefuses : Prop :=
  (∀ imm s (data : List Word), s.params.hasFc10 = true → 1 ≤ s.arg.toNat → s.arg.toNat ≤ s.params.wmax →
    data.length = s.arg.toNat → (∀ i < data.length, memFind s.wdata i = data[i]?) →
    ∃ t, exec (.encWrn imm) s = .next t ∧ t.txlen = 9 + 2 * s.arg.toNat ∧
      Builds ([s.slave, 0x10#8, hi s.addr, lo s.addr, hi s.arg, lo s.arg, BitVec.ofNat 8 (2 * s.arg.toNat)] ++
        data.flatMap (fun w => [hi w, lo w])) s t) ∧
  (∀ imm s, s.params.hasFc10 = true → 1 ≤ s.arg.toNat → s.arg.toNat ≤ s.params.wmax →
    ∃ (data : List Word) (t : State), exec (.encWrn imm) s = .next t ∧ t.txlen = 9 + 2 * s.arg.toNat ∧
      data.length = s.arg.toNat ∧ (∀ i < s.arg.toNat, ∀ w, memFind s.wdata i = some w → data[i]? = some w) ∧
      Builds ([s.slave, 0x10#8, hi s.addr, lo s.addr, hi s.arg, lo s.arg, BitVec.ofNat 8 (2 * s.arg.toNat)] ++
        data.flatMap (fun w => [hi w, lo w])) { s with draws := t.draws } t) ∧
  (∀ imm s, s.params.hasFc10 = false → exec (.encWrn imm) s = .refused .fc10Absent) ∧
  (∀ imm s, s.params.hasFc10 = true → (s.arg.toNat = 0 ∨ s.params.wmax < s.arg.toNat) →
    exec (.encWrn imm) s = .refused .wordCount) ∧
  (∀ imm s, (s.params.hasFc10 = false ∨ s.arg.toNat = 0 ∨ s.params.wmax < s.arg.toNat) →
    ∃ d, serveCommand (commandWord 4#3 imm) s = .next { s with rsp := some { data := d, refused := true } }) ∧
  decodeCommand 0x0400#16 = .ok (.encWrn 0x00#8) ∧
  crc16 [0x01, 0x10, 0x00, 0x01, 0x00, 0x02, 0x04, 0x00, 0xEB, 0xFF, 0x9C] = 0xCE03#16

/-- 41_encode R77: whatever the state and the immediate, the byte an encoder puts at offset 1 is its own
function code, 0x03, 0x06 or 0x10. -/
def Obligations.EncoderFunctionCodeIsFixed : Prop :=
  ∀ imm s t,
    (exec (.encRead imm) s = .next t → memFind t.txbuf 1 = some 0x03#8) ∧
    (exec (.encWr1 imm) s = .next t → memFind t.txbuf 1 = some 0x06#8) ∧
    (exec (.encWrn imm) s = .next t → memFind t.txbuf 1 = some 0x10#8)

/-- 30_encoding sections 1 and 2: what an encoder leaves in TXBUF below TXLEN is the encoding of its request row
with the operands in the row's fields (a WDATA element never written: a free value, log 4). -/
def Obligations.EncodersWriteTheEncodedRow : Prop :=
  (∀ imm s t, exec (.encRead imm) s = .next t → encode (.rqRead s.slave s.addr s.arg) = .request (txFrame t)) ∧
  (∀ imm s t, exec (.encWr1 imm) s = .next t → encode (.rqWr1 s.slave s.addr s.arg) = .request (txFrame t)) ∧
  (∀ imm s t, exec (.encWrn imm) s = .next t → ∃ data : List Word, data.length = s.arg.toNat ∧
    (∀ i < s.arg.toNat, ∀ w, memFind s.wdata i = some w → data[i]? = some w) ∧
    encode (.rqWrn s.slave s.addr data) = .request (txFrame t))

/-- The request rows (30_encoding section 1; the model's reading of a row as an instruction, log 12): each is
accepted under its encoder's conditions and leaves its encoding in TXBUF below TXLEN; nothing but TXBUF, TXLEN
and CRC changes; outside those conditions RQ_WRN is refused by name. -/
def Obligations.RequestRowsBuildTheirFrame : Prop :=
  (∀ a st c s, ∃ t, exec (.rqRead a st c) s = .next t ∧
    Builds [a, 0x03#8, hi st, lo st, hi c, lo c] s t) ∧
  (∀ a r v s, ∃ t, exec (.rqWr1 a r v) s = .next t ∧
    Builds [a, 0x06#8, hi r, lo r, hi v, lo v] s t) ∧
  (∀ a st (data : List Word) s, s.params.hasFc10 = true → 1 ≤ data.length → data.length ≤ s.params.wmax →
    ∃ t, exec (.rqWrn a st data) s = .next t ∧
      Builds ([a, 0x10#8, hi st, lo st, hi (BitVec.ofNat 16 data.length), lo (BitVec.ofNat 16 data.length),
        BitVec.ofNat 8 (2 * data.length)] ++ data.flatMap (fun w => [hi w, lo w])) s t) ∧
  (∀ a st data s, s.params.hasFc10 = false → exec (.rqWrn a st data) s = .refused .fc10Absent) ∧
  (∀ a st data s, s.params.hasFc10 = true → (data.length = 0 ∨ s.params.wmax < data.length) →
    exec (.rqWrn a st data) s = .refused .wordCount)

/-! ### The decoder (42_decode, 60_exceptions) -/

/-- 42_decode R86: for every immediate RX_CLEAR is accepted, sets RXLEN to 0 and changes nothing else, the bytes
of RXBUF included; after it every read of RXBUF finds no defined value; its word is 0x0500. -/
def Obligations.RxClearEmptiesBuffer : Prop :=
  (∀ imm s, exec (.rxClear imm) s = .next { s with rxlen := 0 }) ∧
  (∀ imm s t, exec (.rxClear imm) s = .next t → ∀ i, readReg t (.rxbuf i) = none) ∧
  decodeCommand 0x0500#16 = .ok (.rxClear 0x00#8)

/-- 42_decode R87: on a full buffer RX_BYTE is refused and changes nothing; below FRAME_MAX it is accepted, puts its byte at offset
RXLEN, leaves every other byte of RXBUF and everything else alone, and RXLEN grows by one; its word is 0x0600
plus the byte. -/
def Obligations.RxByteAppends : Prop :=
  (∀ b s, s.rxlen = s.params.frameMax → exec (.rxByte b) s = .refused .rxFull) ∧
  (∀ b s, s.rxlen < s.params.frameMax → ∃ t, exec (.rxByte b) s = .next t ∧ t.rxlen = s.rxlen + 1 ∧
    (∀ j, memFind t.rxbuf j = if j = s.rxlen then some b else memFind s.rxbuf j) ∧
    { t with rxbuf := s.rxbuf, rxlen := s.rxlen } = s) ∧
  (∀ b s, s.rxlen = s.params.frameMax → ∃ d, serveCommand (commandWord 6#3 b) s =
    .next { s with rsp := some { data := d, refused := true } }) ∧
  (∀ b : Byte, decodeCommand (0x0600#16 + b.setWidth 16) = .ok (.rxByte b))

/-- 42_decode R89: DEC is accepted for 0x03, 0x06 and, with HAS_FC10, 0x10, and refused for every other
immediate; a refused DEC that the host issues leaves every field but its own answer as it was. -/
def Obligations.DecAdmitsThreeCodes : Prop :=
  (∀ e s, admitted s.params e → ∃ t, exec (.dec e) s = .next t) ∧
  (∀ e s, ¬ admitted s.params e → ∃ r, exec (.dec e) s = .refused r) ∧
  (∀ e s, ¬ admitted s.params e → ∃ d, serveCommand (commandWord 7#3 e) s =
    .next { s with rsp := some { data := d, refused := true } })

/-- 42_decode sections 2 and 3 with 60_exceptions section 4: DEC, whose meaning takes a list of bytes apart, does
in every state and for every admitted code exactly what the rules' five steps on offsets of RXBUF do. -/
def Obligations.DecFollowsTheFiveSteps : Prop :=
  ∀ e s, admitted s.params e → exec (.dec e) s = .next (decSpec e s)

/-- 60_exceptions section 1, ShortRead: with RXLEN below 5 DEC reports ShortRead and CRC is left as it was. -/
def Obligations.DecShortRead : Prop :=
  ∀ e s, admitted s.params e → s.rxlen < 5 →
    exec (.dec e) s = .next { s with status := .shortRead, exc := 0x00#8, pcount := 0#8 }

/-- 60_exceptions section 1, CrcMismatch: with 5 bytes or more and a CRC that is not the trailer, DEC reports
CrcMismatch whatever else the frame holds, and CRC is the computed value. -/
def Obligations.DecCrcMismatch : Prop :=
  ∀ e s, admitted s.params e → 5 ≤ s.rxlen →
    rxCrc s ≠ be (rxByteAt s (s.rxlen - 1)) (rxByteAt s (s.rxlen - 2)) →
    exec (.dec e) s = .next { s with crc := rxCrc s, status := .crcMismatch, exc := 0x00#8, pcount := 0#8 }

/-- 42_decode section 2, step 3: a frame of 5 bytes or more with a good CRC and bit 7 of byte 1 set is
ExceptionResponse with EXC byte 2, under every admitted code and at every length. -/
def Obligations.DecExceptionResponse : Prop :=
  ∀ e s, admitted s.params e → 5 ≤ s.rxlen →
    rxCrc s = be (rxByteAt s (s.rxlen - 1)) (rxByteAt s (s.rxlen - 2)) → (rxByteAt s 1).getLsbD 7 = true →
    exec (.dec e) s = .next { s with
      crc := rxCrc s, status := .exceptionResponse, exc := rxByteAt s 2, pcount := 0#8 }

/-- 42_decode section 2, step 4: with bit 7 clear and byte 1 not the expected code, UnexpectedFunctionCode. -/
def Obligations.DecUnexpectedFunctionCode : Prop :=
  ∀ e s, admitted s.params e → 5 ≤ s.rxlen →
    rxCrc s = be (rxByteAt s (s.rxlen - 1)) (rxByteAt s (s.rxlen - 2)) → (rxByteAt s 1).getLsbD 7 = false →
    rxByteAt s 1 ≠ e →
    exec (.dec e) s = .next { s with
      crc := rxCrc s, status := .unexpectedFunctionCode, exc := 0x00#8, pcount := 0#8 }

/-- 42_decode R93: for a read response that has passed the first four checks, a byte count that is not RXLEN - 5
or is odd is MalformedFrame; otherwise PCOUNT is half the byte count, each PWORD below it is the big-endian pair
of its offsets, and no other PWORD changes; a byte count of 0 is an empty payload; a frame of at most 256 bytes
gives at most 125 words; the examples' CRCs. -/
def Obligations.DecReadPayload : Prop :=
  (∀ s, 5 ≤ s.rxlen → rxCrc s = be (rxByteAt s (s.rxlen - 1)) (rxByteAt s (s.rxlen - 2)) →
    rxByteAt s 1 = 0x03#8 →
    (((rxByteAt s 2).toNat ≠ s.rxlen - 5 ∨ (rxByteAt s 2).getLsbD 0 = true) →
      exec (.dec 0x03#8) s = .next { s with
        crc := rxCrc s, status := .malformedFrame, exc := 0x00#8, pcount := 0#8 }) ∧
    ((rxByteAt s 2).toNat = s.rxlen - 5 → (rxByteAt s 2).getLsbD 0 = false →
      ∃ t, exec (.dec 0x03#8) s = .next t ∧ t.status = .ok ∧ t.exc = 0x00#8 ∧ t.crc = rxCrc s ∧
        t.pcount.toNat = (rxByteAt s 2).toNat / 2 ∧
        (∀ i, memFind t.pword i =
          if i < (rxByteAt s 2).toNat / 2 then some (be (rxByteAt s (3 + 2 * i)) (rxByteAt s (4 + 2 * i)))
          else memFind s.pword i))) ∧
  (∀ s t, s.rxlen ≤ 256 → exec (.dec 0x03#8) s = .next t → t.pcount.toNat ≤ 125) ∧
  crc16 [0x01, 0x03, 0x04, 0x00, 0xEB, 0xFF, 0x9C] = 0x9ECB#16 ∧
  crc16 [0x01, 0x03, 0x02, 0x00, 0xEB, 0x00] = 0x820A#16 ∧
  crc16 [0x01, 0x03, 0x03, 0x00, 0xEB, 0x01] = 0xBECA#16

/-- 42_decode R94: for a write response (0x06, or 0x10 with HAS_FC10) that has passed the first four checks, a
length other than 8 is MalformedFrame; otherwise PWORD 0 and 1 are the two echoed fields, address first, and
PCOUNT is 2; the examples' CRCs. -/
def Obligations.DecWritePayload : Prop :=
  (∀ e s, admitted s.params e → e ≠ 0x03#8 → 5 ≤ s.rxlen →
    rxCrc s = be (rxByteAt s (s.rxlen - 1)) (rxByteAt s (s.rxlen - 2)) → rxByteAt s 1 = e →
    (s.rxlen ≠ 8 → exec (.dec e) s = .next { s with
        crc := rxCrc s, status := .malformedFrame, exc := 0x00#8, pcount := 0#8 }) ∧
    (s.rxlen = 8 → ∃ t, exec (.dec e) s = .next t ∧ t.status = .ok ∧ t.exc = 0x00#8 ∧ t.crc = rxCrc s ∧
      t.pcount = 2#8 ∧ (∀ i, memFind t.pword i =
        if i = 0 then some (be (rxByteAt s 2) (rxByteAt s 3))
        else if i = 1 then some (be (rxByteAt s 4) (rxByteAt s 5)) else memFind s.pword i))) ∧
  crc16 [0x01, 0x06, 0x00, 0x01, 0x00, 0xEB] = 0x4598#16 ∧ crc16 [0x01, 0x10, 0x00, 0x01, 0x00, 0x02] = 0x0810#16

/-- 60_exceptions R121: when DEC raises an error, STATUS is the error's code, EXC the device's code for
ExceptionResponse and 0x00 otherwise, PCOUNT 0; CRC is untouched after ShortRead and the computed value
otherwise; nothing else changes, PWORD included. -/
def Obligations.ErrorRecordsExactly : Prop :=
  ∀ e s t, exec (.dec e) s = .next t → t.status ≠ .ok → t.status ≠ .none ∧
    t = { s with crc := t.crc, status := t.status, exc := t.exc, pcount := 0#8 } ∧
    (t.status = .shortRead → t.crc = s.crc) ∧ (t.status ≠ .shortRead → t.crc = rxCrc s) ∧
    (t.status = .exceptionResponse → t.exc = rxByteAt s 2) ∧ (t.status ≠ .exceptionResponse → t.exc = 0x00#8) ∧
    Status.code .shortRead = 2#4 ∧ Status.code .crcMismatch = 3#4 ∧ Status.code .exceptionResponse = 4#4 ∧
    Status.code .unexpectedFunctionCode = 5#4 ∧ Status.code .malformedFrame = 6#4

/-- 42_decode section 3, total and repeatable: an admitted DEC ends in one of six outcomes, never NONE, and the
same DEC issued again leaves every field as the first one did. -/
def Obligations.DecIsTotalAndRepeatable : Prop :=
  ∀ e s, admitted s.params e → ∃ t, exec (.dec e) s = .next t ∧ t.status ≠ .none ∧
    (∃ u, exec (.dec e) t = .next u ∧ { u with pword := t.pword } = t ∧
      ∀ i, memFind u.pword i = memFind t.pword i)

/-- 42_decode section 1, the family's frame: an accepted DEC changes STATUS, EXC, PCOUNT, CRC and PWORD only, and
PWORD only below PCOUNT. -/
def Obligations.DecChangesResultsOnly : Prop :=
  ∀ e s t, exec (.dec e) s = .next t →
    { t with status := s.status, exc := s.exc, pcount := s.pcount, crc := s.crc, pword := s.pword } = s ∧
    (∀ i, t.pcount.toNat ≤ i → memFind t.pword i = memFind s.pword i)

/-- 42_decode section 3, what DEC does not check: two states that agree on the received bytes get the same
result, whatever SLAVE, ADDR, ARG, WDATA, the transmit buffer, CRC and the last result are. -/
def Obligations.DecDependsOnReceivedBytesOnly : Prop :=
  ∀ e s s' t, sameReceived s s' → exec (.dec e) s = .next t → ∃ t', exec (.dec e) s' = .next t' ∧
    t'.status = t.status ∧ t'.exc = t.exc ∧ t'.pcount = t.pcount ∧
    (∀ i < t.pcount.toNat, memFind t'.pword i = memFind t.pword i)

/-- 30_encoding section 3 and 42_decode section 3, the dispatch table: after a good CRC, byte 1 and the expected
code alone decide between ExceptionResponse, UnexpectedFunctionCode and the payload step. -/
def Obligations.FunctionCodeDispatch : Prop :=
  ∀ e s t, 5 ≤ s.rxlen → rxCrc s = be (rxByteAt s (s.rxlen - 1)) (rxByteAt s (s.rxlen - 2)) →
    exec (.dec e) s = .next t →
    (t.status = .exceptionResponse ↔ (rxByteAt s 1).getLsbD 7 = true) ∧
    (t.status = .unexpectedFunctionCode ↔ (rxByteAt s 1).getLsbD 7 = false ∧ rxByteAt s 1 ≠ e) ∧
    ((t.status = .ok ∨ t.status = .malformedFrame) ↔ rxByteAt s 1 = e)

/-- The response rows (30_encoding section 1; the model's reading of a row as an instruction, log 12): each that
fits is accepted; CRC is the CRC of its body; a read returns its words, a write its two echoed fields, an
exception response is the error with the device's code; nothing else changes. One that cannot stand in the
buffers, or needs the absent function, is refused by name. -/
def Obligations.ResponseRowsHaveTheirEffect : Prop :=
  (∀ a ws s, ws.length ≤ s.params.pmax → ∃ t, exec (.rsRead a ws) s = .next t ∧
    t.crc = crc16 ([a, 0x03#8, BitVec.ofNat 8 (2 * ws.length)] ++ ws.flatMap (fun w => [hi w, lo w])) ∧
    Reports (.ok ws) t ∧ (∀ i, ws.length ≤ i → memFind t.pword i = memFind s.pword i) ∧
    { t with crc := s.crc, status := s.status, exc := s.exc, pcount := s.pcount, pword := s.pword } = s) ∧
  (∀ a r v s, ∃ t, exec (.rsWr1 a r v) s = .next t ∧ t.crc = crc16 [a, 0x06#8, hi r, lo r, hi v, lo v] ∧
    Reports (.ok [r, v]) t ∧ (∀ i, 2 ≤ i → memFind t.pword i = memFind s.pword i) ∧
    { t with crc := s.crc, status := s.status, exc := s.exc, pcount := s.pcount, pword := s.pword } = s) ∧
  (∀ a st n s, s.params.hasFc10 = true → ∃ t, exec (.rsWrn a st n) s = .next t ∧
    t.crc = crc16 [a, 0x10#8, hi st, lo st, hi n, lo n] ∧
    Reports (.ok [st, n]) t ∧ (∀ i, 2 ≤ i → memFind t.pword i = memFind s.pword i) ∧
    { t with crc := s.crc, status := s.status, exc := s.exc, pcount := s.pcount, pword := s.pword } = s) ∧
  (∀ a (fc : BitVec 7) code rest s, 5 + rest.length ≤ s.params.frameMax →
    exec (.rsExc a fc code rest) s = .next { s with
      crc := crc16 ([a, fc.setWidth 8 ||| 0x80#8, code] ++ rest), status := .exceptionResponse, exc := code,
      pcount := 0#8 }) ∧
  (∀ a ws s, s.params.pmax < ws.length → exec (.rsRead a ws) s = .refused .responseTooLong) ∧
  (∀ a st n s, s.params.hasFc10 = false → exec (.rsWrn a st n) s = .refused .fc10Absent) ∧
  (∀ a fc code rest s, s.params.frameMax < 5 + rest.length →
    exec (.rsExc a fc code rest) s = .refused .responseTooLong)

/-- 42_decode sections 2 and 3 with the model's reading of the response rows (log 12): DEC over the bytes of a
response frame that fits, under a code that selects its row, does exactly what the row's instruction does. -/
def Obligations.DecRunsTheFrameItFinds : Prop :=
  ∀ (r : Response) e s, admitted s.params e → responseUnder e r → responseFits s.params r →
    rxFrame s = withTrailer r.body → exec (.dec e) s = exec r.toInstr s

/-- 40_crc section 5: change any one byte of a frame whose CRC is good, of 5 bytes or more, to another value, and
DEC reports CrcMismatch and returns no payload, whichever byte it is. -/
def Obligations.SingleByteCorruptionIsDetected : Prop :=
  ∀ e s (f : List Byte) i b, admitted s.params e → 5 ≤ f.length → crcMatches f = true → i < f.length →
    f[i]? ≠ some b → rxFrame s = f.set i b →
    ∃ t, exec (.dec e) s = .next t ∧ t.status = .crcMismatch ∧ t.exc = 0x00#8 ∧ t.pcount = 0#8

/-- 70_reset_and_hazards section 3, stale responses: two frames with good CRCs end to end in RXBUF, RX_CLEAR
forgotten between them, are CrcMismatch. -/
def Obligations.StaleFrameIsDetected : Prop :=
  ∀ e s (f g : List Byte), admitted s.params e → 5 ≤ f.length → 5 ≤ g.length → crcMatches f = true →
    crcMatches g = true → rxFrame s = f ++ g → ∃ t, exec (.dec e) s = .next t ∧ t.status = .crcMismatch

/-- 42_decode, opening paragraph, and 30_encoding section 7: RX_CLEAR, one RX_BYTE per byte and DEC implement
`decode_response` for every byte sequence that fits the buffer, from every state. -/
def Obligations.CommandsImplementDecodeResponse : Prop :=
  ∀ e s (bs : List Byte), admitted s.params e → bs.length ≤ s.params.frameMax →
    ∃ t, runCommands (.rxClear 0x00#8 :: (bs.map .rxByte ++ [.dec e])) s = some t ∧
      rxFrame t = bs ∧ Reports (decodeResult e bs) t ∧
      t.slave = s.slave ∧ t.addr = s.addr ∧ t.arg = s.arg ∧ t.wdata = s.wdata ∧ t.txlen = s.txlen ∧
      t.txbuf = s.txbuf

/-! ### Rules of the whole machine -/

/-- 10_state section 3: no command writes an operand register, and no frame row, read as an instruction (log 12),
does; nor any field that is not the block's (the parameters, log 8; the host's list, log 1; its answer, log 9), save
the count of free values, which ENC_WRN alone may raise (logs 4 and 5). -/
def Obligations.OperandRegistersWrittenByNoCommand : Prop :=
  ∀ i s t, exec i s = .next t → t.slave = s.slave ∧ t.addr = s.addr ∧ t.arg = s.arg ∧ t.wdata = s.wdata ∧
    t.params = s.params ∧ t.events = s.events ∧ t.rsp = s.rsp ∧ s.draws ≤ t.draws ∧
    (t.draws = s.draws ∨ ∃ imm, i = .encWrn imm)

/-- 10_state section 5: STATUS, EXC, PCOUNT and PWORD are written by no command but DEC, and by no frame row but the
response rows, which stand for DEC in the model's reading (log 12). -/
def Obligations.OnlyDecodingWritesResults : Prop :=
  ∀ i s t, decodes i = false → exec i s = .next t →
    t.status = s.status ∧ t.exc = s.exc ∧ t.pcount = s.pcount ∧ t.pword = s.pword

/-- 10_state section 5: the transmit buffer is written by no command but the encoders, and by no frame row but the
request rows, which stand for them in the model's reading (log 12); the receive buffer by RX_CLEAR and RX_BYTE
only. -/
def Obligations.BuffersHaveOneWriter : Prop :=
  (∀ i s t, encodes i = false → exec i s = .next t → t.txbuf = s.txbuf ∧ t.txlen = s.txlen) ∧
  (∀ i s t, receives i = false → exec i s = .next t → t.rxbuf = s.rxbuf ∧ t.rxlen = s.rxlen)

/-- 70_reset_and_hazards section 3, the shared CRC engine: RX_CLEAR and RX_BYTE do not touch CRC, nor does a DEC
that ends in ShortRead; every encoder, and every request row, which stands for one in the model's reading (log 12),
leaves in CRC the CRC of the frame it built, its last two bytes. -/
def Obligations.SharedCrcEngine : Prop :=
  (∀ i s t, receives i = true → exec i s = .next t → t.crc = s.crc) ∧
  (∀ e s t, exec (.dec e) s = .next t → t.status = .shortRead → t.crc = s.crc) ∧
  (∀ i s t, encodes i = true → exec i s = .next t →
    memFind t.txbuf (t.txlen - 2) = some (lo t.crc) ∧ memFind t.txbuf (t.txlen - 1) = some (hi t.crc))

/-! ### The host's side (10_state section 7, 30_encoding section 4, 70_reset) -/

/-- A step runs the decoded instruction (10_state section 7): with a CMD of a word that decodes to `i` next, the
event is taken and exec of `i` runs; an accepted command is answered with data 0. That a command exec refuses leaves
all but the answer as it was and that the run goes on is log 3. -/
def Obligations.StepRunsTheDecodedInstruction : Prop :=
  ∀ s (a : BitVec 12) cw rest i, s.events = .request 2#2 a cw :: rest → decodeCommand cw = .ok i →
    (∀ t, exec i { s with events := rest } = .next t →
      step s = .next { t with rsp := some { data := 0x0000#16, refused := false } }) ∧
    (∀ r, exec i { s with events := rest } = .refused r →
      step s = .next { s with events := rest, rsp := some { data := 0x0000#16, refused := true } })

/-- 30_encoding section 4 and 10_state section 7, refused requests: a command word with a nonzero bit above 10,
and a request of kind 3, change nothing and are reported to the host as refused. -/
def Obligations.ReservedRequestsAreRefused : Prop :=
  (∀ s (a : BitVec 12) (cw : Word) rest, s.events = .request 2#2 a cw :: rest → cw.extractLsb' 11 5 ≠ 0#5 →
    step s = .next { s with events := rest, rsp := some { data := 0x0000#16, refused := true } }) ∧
  (∀ s a d rest, s.events = .request 3#2 a d :: rest →
    step s = .next { s with events := rest, rsp := some { data := 0x0000#16, refused := true } })

/-- 10_state section 7, WR: the value, truncated to the width, goes to SLAVE, ADDR, ARG or WDATA and nowhere else;
a WR to a read-only register or to no register changes nothing of the block. That a WR to WDATA changes nothing
without HAS_FC10 is read from 10_state section 3, where WDATA is then absent (log 21). -/
def Obligations.HostWriteChangesOneOperand : Prop :=
  ∀ s (a : BitVec 12) v rest, s.events = .request 1#2 a v :: rest → ∃ t, step s = .next t ∧
    t.rsp = some { data := 0x0000#16, refused := false } ∧ t.events = rest ∧
    t.slave = (if a.toNat = 0x000 then v.setWidth 8 else s.slave) ∧
    t.addr = (if a.toNat = 0x001 then v else s.addr) ∧ t.arg = (if a.toNat = 0x002 then v else s.arg) ∧
    (∀ i, memFind t.wdata i =
      if s.params.hasFc10 = true ∧ i < s.params.wmax ∧ a.toNat = 0x100 + i then some v
      else memFind s.wdata i) ∧
    { t with
      slave := s.slave, addr := s.addr, arg := s.arg, wdata := s.wdata, rsp := s.rsp, events := s.events } = s

/-- 10_state section 7, RD: a read changes no register and no buffer; it returns the register's value,
zero-extended, or a free value where the register has none (log 5). The value of a scalar register is what it
holds, of STATUS its code (section 5), of an element with a defined value that element. -/
def Obligations.HostReadHasNoSideEffect : Prop :=
  (∀ s : State, readReg s .slave = some (s.slave.setWidth 16) ∧ readReg s .addr = some s.addr ∧
    readReg s .arg = some s.arg ∧ readReg s .crc = some s.crc ∧
    readReg s .status = some (s.status.code.setWidth 16) ∧ readReg s .exc = some (s.exc.setWidth 16) ∧
    readReg s .pcount = some (s.pcount.setWidth 16) ∧ readReg s .txlen = some (BitVec.ofNat 16 s.txlen) ∧
    readReg s .rxlen = some (BitVec.ofNat 16 s.rxlen) ∧
    (∀ i w, memFind s.wdata i = some w → readReg s (.wdata i) = some w) ∧
    (∀ i w, i < s.pcount.toNat → memFind s.pword i = some w → readReg s (.pword i) = some w) ∧
    (∀ i b, i < s.txlen → memFind s.txbuf i = some b → readReg s (.txbuf i) = some (b.setWidth 16)) ∧
    (∀ i b, i < s.rxlen → memFind s.rxbuf i = some b → readReg s (.rxbuf i) = some (b.setWidth 16))) ∧
  ∀ s (a : BitVec 12) d rest, s.events = .request 0#2 a d :: rest → ∃ t, step s = .next t ∧
    { t with rsp := s.rsp, events := s.events, draws := s.draws } = s ∧
    (∀ r v, regOf s.params a.toNat = some r → readReg s r = some v →
      t.rsp = some { data := v, refused := false } ∧ t.draws = s.draws) ∧
    ((regOf s.params a.toNat).bind (readReg s) = none →
      t.rsp = some { data := freeRead (regOf s.params a.toNat) s.draws, refused := false } ∧
      t.draws = s.draws + 1)

/-- 10_state section 5, undefined elements: WDATA never written, PWORD at or beyond PCOUNT, TXBUF at or beyond
TXLEN, RXBUF at or beyond RXLEN have no value to read. -/
def Obligations.UndefinedElementsHaveNoValue : Prop :=
  ∀ s i, (memFind s.wdata i = none → readReg s (.wdata i) = none) ∧
    (s.pcount.toNat ≤ i → readReg s (.pword i) = none) ∧ (s.txlen ≤ i → readReg s (.txbuf i) = none) ∧
    (s.rxlen ≤ i → readReg s (.rxbuf i) = none)

/-- 10_state section 7, register numbers: for admitted parameters every register of the block has its number of
the table, and no register has two; a number past the end of its array, and one of WDATA where HAS_FC10 is false
(10_state section 3; log 21), is no register's. -/
def Obligations.RegisterNumbersAreTheTable : Prop :=
  ∀ p : Params, p.wf →
    (List.range 9).map (regOf p) = [some .slave, some .addr, some .arg, some .crc, some .status, some .exc,
      some .pcount, some .txlen, some .rxlen] ∧
    (∀ n, 0x009 ≤ n → n < 0x100 → regOf p n = none) ∧
    (p.hasFc10 = true → ∀ i < p.wmax, regOf p (0x100 + i) = some (.wdata i)) ∧
    (∀ i < p.pmax, regOf p (0x180 + i) = some (.pword i)) ∧
    (∀ i < p.frameMax, regOf p (0x200 + i) = some (.txbuf i) ∧ regOf p (0x400 + i) = some (.rxbuf i)) ∧
    (∀ i, p.wmax ≤ i → i < 0x80 → regOf p (0x100 + i) = none) ∧
    (p.hasFc10 = false → ∀ i < 0x80, regOf p (0x100 + i) = none) ∧
    (∀ i, p.pmax ≤ i → i < 0x80 → regOf p (0x180 + i) = none) ∧
    (∀ i, p.frameMax ≤ i → i < 0x200 → regOf p (0x200 + i) = none) ∧
    (∀ i, p.frameMax ≤ i → regOf p (0x400 + i) = none) ∧
    (∀ m n r, regOf p m = some r → regOf p n = some r → m = n)

/-- 10_state section 2 and 70_reset section 1: the reset input gives every scalar register its reset value,
whatever the state was, and leaves no element of an array with a defined value; the parameters stay. -/
def Obligations.ResetInputGivesResetState : Prop :=
  ∀ s rest, s.events = .reset :: rest → ∃ t, step s = .next t ∧ t.slave = 0x00#8 ∧ t.addr = 0x0000#16 ∧
    t.arg = 0x0000#16 ∧ t.crc = 0xFFFF#16 ∧ t.status.code = 0#4 ∧ t.exc = 0x00#8 ∧ t.pcount = 0#8 ∧
    t.txlen = 0 ∧ t.rxlen = 0 ∧ t.params = s.params ∧ t.events = rest ∧
    (∀ i, readReg t (.wdata i) = none ∧ readReg t (.pword i) = none ∧ readReg t (.txbuf i) = none ∧
      readReg t (.rxbuf i) = none)

/-- 70_reset section 1: State.reset holds the spec's reset values, and the parameters of 00_scope section 3 are at
their defaults, with WMAX 123, PMAX 125 and LENW 9. -/
def Obligations.ResetStateValues : Prop :=
  State.reset.slave = 0x00#8 ∧ State.reset.addr = 0x0000#16 ∧ State.reset.arg = 0x0000#16 ∧
  State.reset.crc = 0xFFFF#16 ∧ State.reset.status.code = 0#4 ∧ State.reset.exc = 0x00#8 ∧
  State.reset.pcount = 0#8 ∧ State.reset.txlen = 0 ∧ State.reset.rxlen = 0 ∧
  State.reset.params.frameMax = 256 ∧ State.reset.params.hasFc10 = true ∧ State.reset.params.wmax = 123 ∧
  State.reset.params.pmax = 125 ∧ State.reset.params.lenw = 9

/-- The invariant (Safety) holds at reset. -/
def Obligations.InvariantHoldsAtReset : Prop := State.reset.Inv

/-- Every step keeps the invariant, from every state that has it: canonical and bounded buffers, every defined
element written, EXC and PCOUNT clear unless STATUS says otherwise. -/
def Obligations.StepKeepsInvariant : Prop := ∀ s t, s.Inv → step s = .next t → t.Inv

/-- 20_memory section 3, 10_state section 5 and 00_scope section 3: in a state with the invariant the lengths fit
their registers' width and PCOUNT is at most PMAX, and a RD of TXLEN, RXLEN or PCOUNT returns the number itself. -/
def Obligations.LengthsFitTheirRegisters : Prop :=
  ∀ s : State, s.Inv → s.txlen < 2 ^ s.params.lenw ∧ s.rxlen < 2 ^ s.params.lenw ∧
    s.pcount.toNat ≤ s.params.pmax ∧
    (∃ v, readReg s .txlen = some v ∧ v.toNat = s.txlen) ∧ (∃ v, readReg s .rxlen = some v ∧ v.toNat = s.rxlen) ∧
    (∃ v, readReg s .pcount = some v ∧ v.toNat = s.pcount.toNat)

/-- 70_reset section 2: the block never halts and never waits: from every state a step answers a next state, a
refused command too (log 3) and ENC_WRN over a WDATA element never written (log 4). -/
def Obligations.EveryStepAnswers : Prop := ∀ s, ∃ t, step s = .next t

/-! ### Encoding -/

/-- Decode and encode agree: every well-formed instruction, command or frame, with every value of its fields, is
read back from its encoding, and so is an exception response longer than 5 bytes, which is not well-formed (log 16).
Request frames are read back by the model's own reader, which the block does not have (log 15). -/
def Obligations.DecodeOfEncode : Prop :=
  (∀ i : Instr, i.wellFormed = true → decode (encode i) = .ok i) ∧
  (∀ a fc code rest, decode (encode (.rsExc a fc code rest)) = .ok (.rsExc a fc code rest))

/-- 30_encoding section 4: a word whose five upper bits are 0 decodes to an instruction whose encoding is that
word; every other word is rejected. -/
def Obligations.CommandWordsHaveOneMeaning : Prop :=
  ∀ cw : Word, (cw.extractLsb' 11 5 = 0#5 → ∃ i, decodeCommand cw = .ok i ∧ encode i = .command cw) ∧
    (cw.extractLsb' 11 5 ≠ 0#5 → decodeCommand cw = .error .reservedBits)

/-- Words and frames written out from the spec's encodings decode to the instructions they stand for, one of
each family; the request frame by the model's own reader (log 15). -/
def Obligations.SpecWordsDecode : Prop :=
  decode (.command 0x0101#16) = .ok (.crcByte 0x01#8) ∧ decode (.command 0x0200#16) = .ok (.encRead 0x00#8) ∧
  decode (.command 0x0703#16) = .ok (.dec 0x03#8) ∧ decode (.command 0x0801#16) = .error .reservedBits ∧
  decode (.request [0x01, 0x03, 0x00, 0x00, 0x00, 0x01, 0x84, 0x0A]) = .ok (.rqRead 0x01#8 0x0000#16 0x0001#16) ∧
  decode (.response [0x01, 0x03, 0x02, 0x00, 0xEB, 0xF8, 0x0B]) = .ok (.rsRead 0x01#8 [0x00EB#16]) ∧
  decode (.response [0x01, 0x83, 0x02, 0xC0, 0xF1]) = .ok (.rsExc 0x01#8 0x03#7 0x02#8 [])

/-! ### The host layers (43_host_layers; log 17) -/

/-- 43_host_layers section 1, value encodings (the host's functions, logs 17 and 26): for every width and every
scale but 0, encoding the decoded value gives the RawValue back; a read back of what a value of one word, or of
two in whichever order (log 24), was encoded as gives that value; a value that is no multiple of 1 / scale has no
RawValue; 23.5 at scale 10 is raw 235. -/
def Obligations.FixedPointRoundTrip : Prop :=
  (∀ (n : Nat) (e : ValueEncoding) (r : BitVec n), e ≠ .fixedPoint 0 → encodeValue e (decodeValue e r) = some r) ∧
  (∀ (d : RegisterDesc) v w, d.width = .one → encodeValue d.encoding v = some w → decodeWords d [w] = v) ∧
  (∀ (d : RegisterDesc) v r, d.width = .two → encodeValue d.encoding v = some r →
    decodeWords d (splitRaw d.address r) = v) ∧
  (∀ (d : RegisterDesc) w0 w1, splitRaw d.address (joinWords d.address w0 w1) = [w0, w1]) ∧
  (∀ (n : Nat) (k v : ℚ), (v * k).den ≠ 1 → (encodeValue (.fixedPoint k) v : Option (BitVec n)) = none) ∧
  decodeValue (.fixedPoint 10) 0x00EB#16 = 47 / 2

/-- 43_host_layers sections 1 and 2, access check and lookup, as the model orders them in the engine's first
transition (log 17): a write to a ReadOnly register, and any operation on a name not in the table, fails with that
error, whatever the transport, and no bus operation is performed. -/
def Obligations.AccessErrorsTouchNothing : Prop :=
  (∀ cfg tr name v s d, resolve cfg.registers name = .ok d → d.access = .readOnly →
    transact cfg tr { name := name, op := .write v } s = (.failed .readOnlyViolation, s)) ∧
  (∀ cfg tr inv s, List.lookup inv.name cfg.registers = none →
    transact cfg tr inv s = (.failed .unknownRegister, s))

/-- 43_host_layers section 2 (the host's functions, log 17): a read transaction sends exactly the RQ_READ frame of
the register; a transport that fails to write or to read is TransportError with its report, no byte is Timeout,
and otherwise the outcome is `decode_response` of the bytes, at most FRAME_MAX of them, any error verbatim. -/
def Obligations.ReadTransactionIsDecodeResponse : Prop :=
  ∀ cfg tr name s d f, resolve cfg.registers name = .ok d →
    f = withTrailer [cfg.slave, 0x03#8, hi d.address, lo d.address, hi d.width.words, lo d.width.words] →
    (∀ e, tr.write f = .error e →
      (transact cfg tr { name := name, op := .read } s).1 = .failed (.transportError e)) ∧
    (∀ u e, tr.write f = .ok u → tr.readWithTimeout f (min cfg.maxBytes s.params.frameMax) cfg.duration = .error e →
      (transact cfg tr { name := name, op := .read } s).1 = .failed (.transportError e)) ∧
    (∀ u bytes, tr.write f = .ok u →
      tr.readWithTimeout f (min cfg.maxBytes s.params.frameMax) cfg.duration = .ok bytes →
      (transact cfg tr { name := name, op := .read } s).1 =
        if bytes.take (min cfg.maxBytes s.params.frameMax) = [] then .failed .timeout
        else match decodeResult 0x03#8 (bytes.take (min cfg.maxBytes s.params.frameMax)) with
          | .ok ws => .decoded ws
          | .error e => .failed (.block e))

/-- 43_host_layers section 2 and 41_encode section 3 (the host's functions, log 17): a write of a one-word
ReadWrite register whose value has a RawValue sends exactly the RQ_WR1 frame of that word, a write of a two-word
one, where the block has function 0x10 and room, exactly the RQ_WRN frame of the two words of its RawValue (whose
order is free, log 24; that they are its halves, log 26), and the outcome is `decode_response` of the answer under
the request's own function code. -/
def Obligations.WriteTransactionSendsItsFrame : Prop :=
  ∀ cfg tr name v s d f, resolve cfg.registers name = .ok d → d.access = .readWrite →
    ((∃ w, d.width = .one ∧ encodeValue d.encoding v = some w ∧
        f = withTrailer [cfg.slave, 0x06#8, hi d.address, lo d.address, hi w, lo w]) ∨
      (∃ r w0 w1, d.width = .two ∧ s.params.hasFc10 = true ∧ 2 ≤ s.params.wmax ∧
        encodeValue d.encoding v = some r ∧ splitRaw d.address r = [w0, w1] ∧
        f = withTrailer [cfg.slave, 0x10#8, hi d.address, lo d.address, 0x00#8, 0x02#8, 0x04#8, hi w0, lo w0, hi w1,
          lo w1])) →
    (∀ e, tr.write f = .error e →
      (transact cfg tr { name := name, op := .write v } s).1 = .failed (.transportError e)) ∧
    (∀ u bytes, tr.write f = .ok u →
      tr.readWithTimeout f (min cfg.maxBytes s.params.frameMax) cfg.duration = .ok bytes →
      (transact cfg tr { name := name, op := .write v } s).1 =
        if bytes.take (min cfg.maxBytes s.params.frameMax) = [] then .failed .timeout
        else match decodeResult (if d.width = .one then 0x06#8 else 0x10#8)
            (bytes.take (min cfg.maxBytes s.params.frameMax)) with
          | .ok ws => .decoded ws
          | .error e => .failed (.block e))

/-- 43_host_layers section 1 and 93_implementation_defined section 1, a value not representable at the scale or
out of range (the host's functions, logs 17 and 26): a write of a value with no RawValue of the register's width
is refused by the host, whatever the block and the transport: the engine stays Idle and no bus operation is
performed. -/
def Obligations.ValueWithNoRawValueIsNotIssued : Prop :=
  ∀ cfg tr name v s d, resolve cfg.registers name = .ok d → d.access = .readWrite →
    (d.width = .one ∧ (encodeValue d.encoding v : Option Word) = none ∨
      d.width = .two ∧ (encodeValue d.encoding v : Option (BitVec 32)) = none) →
    transact cfg tr { name := name, op := .write v } s = (.idle, s)

/-- 30_encoding section 7 and 10_state section 7, the WR part of ENCODE_WRITE_MULTIPLE (log 17, log 23): for any
number of words, WDATA[i] takes the i-th for every element the block has, and nothing else changes but the host's
answer. -/
def Obligations.WdataWritesReachWdataOnly : Prop :=
  ∀ s (data : List Word) t, t = hostRun (wdataEvents 0 data) s →
    (∀ i, memFind t.wdata i =
      if s.params.hasFc10 = true ∧ i < s.params.wmax ∧ i < data.length then data[i]? else memFind s.wdata i) ∧
    { t with wdata := s.wdata, rsp := s.rsp } = s
end

