-- ==== Sys2Proof/Laws/Codec.lean ====
section
/-! SUPPORT. Byte order, the fields of a command word, and the CRC functions: what each does, once. -/

namespace Sys2Proof.Machine

theorem be_getLsbD (h l : Byte) (i : Nat) :
    (be h l).getLsbD i = if i < 8 then l.getLsbD i else h.getLsbD (i - 8) :=
  BitVec.getLsbD_append ..

theorem commandWord_getLsbD (op : BitVec 3) (imm : Byte) (i : Nat) :
    (commandWord op imm).getLsbD i =
      if i < 8 then imm.getLsbD i else if i < 11 then op.getLsbD (i - 8) else false := by
  have h1 : (commandWord op imm).getLsbD i = _ := BitVec.getLsbD_append (x := 0#5 ++ op) (y := imm)
  have h2 : (0#5 ++ op : BitVec 8).getLsbD (i - 8) = _ := BitVec.getLsbD_append (x := 0#5) (y := op)
  rw [h1]
  split_ifs with h8 h11
  · rfl
  · rw [h2, if_pos (by omega)]
  · rw [h2, if_neg (by omega)]; simp

@[simp] theorem hi_be (h l : Byte) : hi (be h l) = h := by
  apply BitVec.eq_of_getLsbD_eq
  intro i hi8
  rw [hi, BitVec.getLsbD_extractLsb', be_getLsbD, if_neg (by omega)]
  simp [hi8]

@[simp] theorem lo_be (h l : Byte) : lo (be h l) = l := by
  apply BitVec.eq_of_getLsbD_eq
  intro i hi8
  rw [lo, BitVec.getLsbD_extractLsb', be_getLsbD, if_pos (by omega)]
  simp [hi8]

@[simp] theorem be_hi_lo (w : Word) : be (hi w) (lo w) = w := by
  apply BitVec.eq_of_getLsbD_eq
  intro i hi16
  rw [be_getLsbD, hi, lo, BitVec.getLsbD_extractLsb', BitVec.getLsbD_extractLsb']
  split_ifs with h8
  · simp [h8]
  · rw [show 8 + (i - 8) = i by omega]; simp; omega

theorem bytesOfWords_length (ws : List Word) : (bytesOfWords ws).length = 2 * ws.length := by
  induction ws with
  | nil => rfl
  | cons w ws ih => simp [bytesOfWords, ih]; omega

theorem wordsOfBytes_bytesOfWords (ws : List Word) : wordsOfBytes (bytesOfWords ws) = ws := by
  induction ws with
  | nil => rfl
  | cons w ws ih => simp [bytesOfWords, wordsOfBytes, ih]

/-- Every two bytes form a word; a byte left over forms none. -/
theorem wordsOfBytes_length (bs : List Byte) : (wordsOfBytes bs).length = bs.length / 2 := by
  induction bs using wordsOfBytes.induct with
  | case1 h l bs ih => simp only [wordsOfBytes, List.length_cons, ih]; omega
  | case2 bs hbs =>
    match bs with
    | [] => rfl
    | [b] => simp [wordsOfBytes]
    | h :: l :: bs => exact absurd rfl (hbs h l bs)

@[simp] theorem withTrailer_length (body : List Byte) : (withTrailer body).length = body.length + 2 := by
  simp [withTrailer, leBytes]

@[simp] theorem frameBody_withTrailer (body : List Byte) : frameBody (withTrailer body) = body := by
  simp [frameBody, withTrailer_length]; simp [withTrailer]

@[simp] theorem frameTrailer_withTrailer (body : List Byte) : frameTrailer (withTrailer body) = crc16 body := by
  simp only [frameTrailer, withTrailer_length]
  simp [withTrailer, leBytes, List.getD]

/-- A frame built with its CRC appended passes the check (40_crc R73). -/
@[simp] theorem crcMatches_withTrailer (body : List Byte) : crcMatches (withTrailer body) = true := by
  simp [crcMatches]

theorem crcShift_xor (c d : Word) : crcShift (c ^^^ d) = crcShift c ^^^ crcShift d := by
  unfold crcShift
  rw [BitVec.getLsbD_xor]
  cases c.getLsbD 0 <;> cases d.getLsbD 0 <;> simp [BitVec.ushiftRight_xor_distrib] <;> ac_nf
  simp

theorem crcShifts_xor (n : Nat) (c d : Word) : crcShifts n (c ^^^ d) = crcShifts n c ^^^ crcShifts n d := by
  induction n generalizing c d with
  | zero => rfl
  | succ n ih => rw [crcShifts, crcShift_xor, ih]; rfl

theorem crcOver_append (c : Word) (xs ys : List Byte) :
    crcOver c (xs ++ ys) = crcOver (crcOver c xs) ys := by
  simp [crcOver]

@[simp] theorem cwImm_commandWord (op : BitVec 3) (imm : Byte) : cwImm (commandWord op imm) = imm := by
  apply BitVec.eq_of_getLsbD_eq
  intro i h
  rw [cwImm, BitVec.getLsbD_extractLsb', commandWord_getLsbD, if_pos (by omega)]
  simp [h]

@[simp] theorem cwOp_commandWord (op : BitVec 3) (imm : Byte) : cwOp (commandWord op imm) = op := by
  apply BitVec.eq_of_getLsbD_eq
  intro i h
  rw [cwOp, BitVec.getLsbD_extractLsb', commandWord_getLsbD, if_neg (by omega), if_pos (by omega)]
  simp [h]

@[simp] theorem cwZero_commandWord (op : BitVec 3) (imm : Byte) : cwZero (commandWord op imm) = 0#5 := by
  apply BitVec.eq_of_getLsbD_eq
  intro i h
  rw [cwZero, BitVec.getLsbD_extractLsb', commandWord_getLsbD, if_neg (by omega), if_neg (by omega)]
  simp

/-- The three fields of a command word are all of it (30_encoding R55). -/
theorem commandWord_fields (cw : Word) (h : cwZero cw = 0#5) : commandWord (cwOp cw) (cwImm cw) = cw := by
  apply BitVec.eq_of_getLsbD_eq
  intro i hi16
  rw [commandWord_getLsbD, cwOp, cwImm, BitVec.getLsbD_extractLsb', BitVec.getLsbD_extractLsb']
  split_ifs with h8 h11
  · simp [h8]
  · rw [show 8 + (i - 8) = i by omega]; simp; omega
  · have := congrArg (fun v => v.getLsbD (i - 11)) h
    simp only [cwZero, BitVec.getLsbD_extractLsb'] at this
    rw [show 11 + (i - 11) = i by omega] at this
    simp at this
    exact (this (by omega)).symm

end Sys2Proof.Machine
end

