-- ==== Sys2Proof/Laws/Memory.lean ====
section
/-! SUPPORT. The laws of an address space: a read after a write to the same index gives the value written, a
write leaves every other index alone, and every write keeps the canonical form and the index range. -/

namespace Sys2Proof.Machine

variable {w : Nat}

theorem memFind_memWrite (m : Memory w) (i j : Nat) (b : BitVec w) :
    memFind (memWrite m i b) j = if j = i then some b else memFind m j := by
  induction m with
  | nil => simp [memWrite, memFind, eq_comm]
  | cons c m ih =>
    obtain ⟨k, v⟩ := c
    by_cases h1 : i < k
    · rw [memWrite, if_pos h1, memFind]
      exact if_congr eq_comm rfl rfl
    · by_cases h2 : i = k
      · subst h2
        rw [memWrite, if_neg h1, if_pos rfl, memFind, memFind]
        by_cases hj : i = j
        · rw [if_pos hj, if_pos hj.symm]
        · rw [if_neg hj, if_neg (Ne.symm hj), if_neg hj]
      · rw [memWrite, if_neg h1, if_neg h2, memFind, memFind, ih]
        by_cases hj : k = j
        · rw [if_pos hj, if_pos hj, if_neg (by omega)]
        · rw [if_neg hj, if_neg hj]

theorem memFind_none_of_below (m : Memory w) (i : Nat) (h : ∀ c ∈ m, i < c.1) : memFind m i = none := by
  induction m with
  | nil => rfl
  | cons c m ih =>
    obtain ⟨k, v⟩ := c
    have hk : i < k := h (k, v) (by simp)
    simp only [memFind, if_neg hk.ne']
    exact ih fun c hc => h c (by simp [hc])

theorem memWrite_mem (m : Memory w) (i : Nat) (b : BitVec w) (c : Nat × BitVec w) (hc : c ∈ memWrite m i b) :
    c = (i, b) ∨ c ∈ m := by
  induction m with
  | nil => simpa [memWrite] using hc
  | cons d m ih =>
    obtain ⟨k, v⟩ := d
    simp only [memWrite] at hc
    split_ifs at hc with h1 h2 <;> simp only [List.mem_cons] at hc ⊢
    · exact hc
    · rcases hc with rfl | hc
      · exact .inl rfl
      · exact .inr (.inr hc)
    · rcases hc with rfl | hc
      · exact .inr (.inl rfl)
      · rcases ih hc with rfl | hc
        · exact .inl rfl
        · exact .inr (.inr hc)

/-- A write keeps the canonical form. -/
theorem memWrite_wf (m : Memory w) (i : Nat) (b : BitVec w) (h : Memory.wf m) : Memory.wf (memWrite m i b) := by
  induction m with
  | nil => simp [memWrite, Memory.wf]
  | cons d m ih =>
    obtain ⟨k, v⟩ := d
    obtain ⟨hk, hm⟩ := List.pairwise_cons.mp h
    simp only [memWrite]
    split_ifs with h1 h2
    · refine List.pairwise_cons.mpr ⟨fun c hc => ?_, h⟩
      rcases List.mem_cons.mp hc with rfl | hc
      · exact h1
      · exact h1.trans (hk c hc)
    · subst h2
      exact List.pairwise_cons.mpr ⟨hk, hm⟩
    · refine List.pairwise_cons.mpr ⟨fun c hc => ?_, ih hm⟩
      rcases memWrite_mem m i b c hc with rfl | hc
      · exact Nat.lt_of_le_of_ne (Nat.le_of_not_lt h1) (Ne.symm h2)
      · exact hk c hc

/-- Consecutive writes keep the canonical form. -/
theorem memWriteAll_wf (bs : List (BitVec w)) :
    ∀ (m : Memory w) (i : Nat), Memory.wf m → Memory.wf (memWriteAll m i bs) := by
  induction bs with
  | nil => exact fun m i h => h
  | cons b bs ih => exact fun m i h => ih _ _ (memWrite_wf m i b h)

/-- What an index holds after consecutive writes from `i` up. -/
theorem memFind_memWriteAll (bs : List (BitVec w)) :
    ∀ (m : Memory w) (i j : Nat),
      memFind (memWriteAll m i bs) j = if i ≤ j ∧ j < i + bs.length then bs[j - i]? else memFind m j := by
  induction bs with
  | nil => intro m i j; simp [memWriteAll]
  | cons b bs ih =>
    intro m i j
    rw [memWriteAll, ih, memFind_memWrite]
    simp only [List.length_cons]
    by_cases hj : j = i
    · subst hj; simp
    · by_cases hr : i + 1 ≤ j ∧ j < i + 1 + bs.length
      · rw [if_pos hr, if_pos (by omega), show j - i = (j - (i + 1)) + 1 by omega]; simp
      · rw [if_neg hr, if_neg hj, if_neg (by omega)]

/-- A write inside the range keeps the range. -/
theorem memWrite_below (m : Memory w) (i n : Nat) (b : BitVec w) (hi : i < n) (h : ∀ c ∈ m, c.1 < n) :
    ∀ c ∈ memWrite m i b, c.1 < n := by
  intro c hc
  rcases memWrite_mem m i b c hc with rfl | hc
  · exact hi
  · exact h c hc

/-- Consecutive writes inside the range keep the range. -/
theorem memWriteAll_below (n : Nat) (bs : List (BitVec w)) :
    ∀ (m : Memory w) (i : Nat), i + bs.length ≤ n → (∀ c ∈ m, c.1 < n) →
      ∀ c ∈ memWriteAll m i bs, c.1 < n := by
  induction bs with
  | nil => exact fun m i _ h => h
  | cons b bs ih =>
    intro m i hi h
    simp only [List.length_cons] at hi
    exact ih _ _ (by omega) (memWrite_below m i n b (by omega) h)

end Sys2Proof.Machine
end

