-- ==== Sys2Proof/Laws/State.lean ====
section
/-! SUPPORT. One lemma per field per update of State, each true by definition, so that no proof unfolds a
record update. -/

namespace Sys2Proof.Machine

@[simp] theorem setCrc_slave (c : Word) (s : State) : (setCrc c s).slave = s.slave := rfl
@[simp] theorem setCrc_addr (c : Word) (s : State) : (setCrc c s).addr = s.addr := rfl
@[simp] theorem setCrc_arg (c : Word) (s : State) : (setCrc c s).arg = s.arg := rfl
@[simp] theorem setCrc_wdata (c : Word) (s : State) : (setCrc c s).wdata = s.wdata := rfl
@[simp] theorem setCrc_crc (c : Word) (s : State) : (setCrc c s).crc = c := rfl
@[simp] theorem setCrc_status (c : Word) (s : State) : (setCrc c s).status = s.status := rfl
@[simp] theorem setCrc_exc (c : Word) (s : State) : (setCrc c s).exc = s.exc := rfl
@[simp] theorem setCrc_pcount (c : Word) (s : State) : (setCrc c s).pcount = s.pcount := rfl
@[simp] theorem setCrc_pword (c : Word) (s : State) : (setCrc c s).pword = s.pword := rfl
@[simp] theorem setCrc_txlen (c : Word) (s : State) : (setCrc c s).txlen = s.txlen := rfl
@[simp] theorem setCrc_txbuf (c : Word) (s : State) : (setCrc c s).txbuf = s.txbuf := rfl
@[simp] theorem setCrc_rxlen (c : Word) (s : State) : (setCrc c s).rxlen = s.rxlen := rfl
@[simp] theorem setCrc_rxbuf (c : Word) (s : State) : (setCrc c s).rxbuf = s.rxbuf := rfl
@[simp] theorem setCrc_params (c : Word) (s : State) : (setCrc c s).params = s.params := rfl
@[simp] theorem setCrc_events (c : Word) (s : State) : (setCrc c s).events = s.events := rfl
@[simp] theorem setCrc_rsp (c : Word) (s : State) : (setCrc c s).rsp = s.rsp := rfl
@[simp] theorem setCrc_draws (c : Word) (s : State) : (setCrc c s).draws = s.draws := rfl

@[simp] theorem drawValues_slave (k : Nat) (s : State) : (drawValues k s).slave = s.slave := rfl
@[simp] theorem drawValues_addr (k : Nat) (s : State) : (drawValues k s).addr = s.addr := rfl
@[simp] theorem drawValues_arg (k : Nat) (s : State) : (drawValues k s).arg = s.arg := rfl
@[simp] theorem drawValues_wdata (k : Nat) (s : State) : (drawValues k s).wdata = s.wdata := rfl
@[simp] theorem drawValues_crc (k : Nat) (s : State) : (drawValues k s).crc = s.crc := rfl
@[simp] theorem drawValues_status (k : Nat) (s : State) : (drawValues k s).status = s.status := rfl
@[simp] theorem drawValues_exc (k : Nat) (s : State) : (drawValues k s).exc = s.exc := rfl
@[simp] theorem drawValues_pcount (k : Nat) (s : State) : (drawValues k s).pcount = s.pcount := rfl
@[simp] theorem drawValues_pword (k : Nat) (s : State) : (drawValues k s).pword = s.pword := rfl
@[simp] theorem drawValues_txlen (k : Nat) (s : State) : (drawValues k s).txlen = s.txlen := rfl
@[simp] theorem drawValues_txbuf (k : Nat) (s : State) : (drawValues k s).txbuf = s.txbuf := rfl
@[simp] theorem drawValues_rxlen (k : Nat) (s : State) : (drawValues k s).rxlen = s.rxlen := rfl
@[simp] theorem drawValues_rxbuf (k : Nat) (s : State) : (drawValues k s).rxbuf = s.rxbuf := rfl
@[simp] theorem drawValues_params (k : Nat) (s : State) : (drawValues k s).params = s.params := rfl
@[simp] theorem drawValues_events (k : Nat) (s : State) : (drawValues k s).events = s.events := rfl
@[simp] theorem drawValues_rsp (k : Nat) (s : State) : (drawValues k s).rsp = s.rsp := rfl
@[simp] theorem drawValues_draws (k : Nat) (s : State) : (drawValues k s).draws = s.draws + k := rfl

@[simp] theorem buildFrame_slave (body : List Byte) (s : State) : (buildFrame body s).slave = s.slave := rfl
@[simp] theorem buildFrame_addr (body : List Byte) (s : State) : (buildFrame body s).addr = s.addr := rfl
@[simp] theorem buildFrame_arg (body : List Byte) (s : State) : (buildFrame body s).arg = s.arg := rfl
@[simp] theorem buildFrame_wdata (body : List Byte) (s : State) : (buildFrame body s).wdata = s.wdata := rfl
@[simp] theorem buildFrame_crc (body : List Byte) (s : State) : (buildFrame body s).crc = crc16 body := rfl
@[simp] theorem buildFrame_status (body : List Byte) (s : State) : (buildFrame body s).status = s.status := rfl
@[simp] theorem buildFrame_exc (body : List Byte) (s : State) : (buildFrame body s).exc = s.exc := rfl
@[simp] theorem buildFrame_pcount (body : List Byte) (s : State) : (buildFrame body s).pcount = s.pcount := rfl
@[simp] theorem buildFrame_pword (body : List Byte) (s : State) : (buildFrame body s).pword = s.pword := rfl
@[simp] theorem buildFrame_txlen (body : List Byte) (s : State) : (buildFrame body s).txlen = (withTrailer body).length := rfl
@[simp] theorem buildFrame_txbuf (body : List Byte) (s : State) : (buildFrame body s).txbuf = memWriteAll s.txbuf 0 (withTrailer body) := rfl
@[simp] theorem buildFrame_rxlen (body : List Byte) (s : State) : (buildFrame body s).rxlen = s.rxlen := rfl
@[simp] theorem buildFrame_rxbuf (body : List Byte) (s : State) : (buildFrame body s).rxbuf = s.rxbuf := rfl
@[simp] theorem buildFrame_params (body : List Byte) (s : State) : (buildFrame body s).params = s.params := rfl
@[simp] theorem buildFrame_events (body : List Byte) (s : State) : (buildFrame body s).events = s.events := rfl
@[simp] theorem buildFrame_rsp (body : List Byte) (s : State) : (buildFrame body s).rsp = s.rsp := rfl
@[simp] theorem buildFrame_draws (body : List Byte) (s : State) : (buildFrame body s).draws = s.draws := rfl

@[simp] theorem deliver_slave (words : List Word) (s : State) : (deliver words s).slave = s.slave := rfl
@[simp] theorem deliver_addr (words : List Word) (s : State) : (deliver words s).addr = s.addr := rfl
@[simp] theorem deliver_arg (words : List Word) (s : State) : (deliver words s).arg = s.arg := rfl
@[simp] theorem deliver_wdata (words : List Word) (s : State) : (deliver words s).wdata = s.wdata := rfl
@[simp] theorem deliver_crc (words : List Word) (s : State) : (deliver words s).crc = s.crc := rfl
@[simp] theorem deliver_status (words : List Word) (s : State) : (deliver words s).status = .ok := rfl
@[simp] theorem deliver_exc (words : List Word) (s : State) : (deliver words s).exc = 0x00#8 := rfl
@[simp] theorem deliver_pcount (words : List Word) (s : State) : (deliver words s).pcount = BitVec.ofNat 8 words.length := rfl
@[simp] theorem deliver_pword (words : List Word) (s : State) : (deliver words s).pword = memWriteAll s.pword 0 words := rfl
@[simp] theorem deliver_txlen (words : List Word) (s : State) : (deliver words s).txlen = s.txlen := rfl
@[simp] theorem deliver_txbuf (words : List Word) (s : State) : (deliver words s).txbuf = s.txbuf := rfl
@[simp] theorem deliver_rxlen (words : List Word) (s : State) : (deliver words s).rxlen = s.rxlen := rfl
@[simp] theorem deliver_rxbuf (words : List Word) (s : State) : (deliver words s).rxbuf = s.rxbuf := rfl
@[simp] theorem deliver_params (words : List Word) (s : State) : (deliver words s).params = s.params := rfl
@[simp] theorem deliver_events (words : List Word) (s : State) : (deliver words s).events = s.events := rfl
@[simp] theorem deliver_rsp (words : List Word) (s : State) : (deliver words s).rsp = s.rsp := rfl
@[simp] theorem deliver_draws (words : List Word) (s : State) : (deliver words s).draws = s.draws := rfl

@[simp] theorem raiseError_slave (e : ModbusError) (s : State) : (raiseError e s).slave = s.slave := rfl
@[simp] theorem raiseError_addr (e : ModbusError) (s : State) : (raiseError e s).addr = s.addr := rfl
@[simp] theorem raiseError_arg (e : ModbusError) (s : State) : (raiseError e s).arg = s.arg := rfl
@[simp] theorem raiseError_wdata (e : ModbusError) (s : State) : (raiseError e s).wdata = s.wdata := rfl
@[simp] theorem raiseError_crc (e : ModbusError) (s : State) : (raiseError e s).crc = s.crc := rfl
@[simp] theorem raiseError_status (e : ModbusError) (s : State) : (raiseError e s).status = errorStatus e := rfl
@[simp] theorem raiseError_exc (e : ModbusError) (s : State) : (raiseError e s).exc = errorInfo e := rfl
@[simp] theorem raiseError_pcount (e : ModbusError) (s : State) : (raiseError e s).pcount = 0#8 := rfl
@[simp] theorem raiseError_pword (e : ModbusError) (s : State) : (raiseError e s).pword = s.pword := rfl
@[simp] theorem raiseError_txlen (e : ModbusError) (s : State) : (raiseError e s).txlen = s.txlen := rfl
@[simp] theorem raiseError_txbuf (e : ModbusError) (s : State) : (raiseError e s).txbuf = s.txbuf := rfl
@[simp] theorem raiseError_rxlen (e : ModbusError) (s : State) : (raiseError e s).rxlen = s.rxlen := rfl
@[simp] theorem raiseError_rxbuf (e : ModbusError) (s : State) : (raiseError e s).rxbuf = s.rxbuf := rfl
@[simp] theorem raiseError_params (e : ModbusError) (s : State) : (raiseError e s).params = s.params := rfl
@[simp] theorem raiseError_events (e : ModbusError) (s : State) : (raiseError e s).events = s.events := rfl
@[simp] theorem raiseError_rsp (e : ModbusError) (s : State) : (raiseError e s).rsp = s.rsp := rfl
@[simp] theorem raiseError_draws (e : ModbusError) (s : State) : (raiseError e s).draws = s.draws := rfl

@[simp] theorem respond_slave (d : Word) (r : Bool) (s : State) : (respond d r s).slave = s.slave := rfl
@[simp] theorem respond_addr (d : Word) (r : Bool) (s : State) : (respond d r s).addr = s.addr := rfl
@[simp] theorem respond_arg (d : Word) (r : Bool) (s : State) : (respond d r s).arg = s.arg := rfl
@[simp] theorem respond_wdata (d : Word) (r : Bool) (s : State) : (respond d r s).wdata = s.wdata := rfl
@[simp] theorem respond_crc (d : Word) (r : Bool) (s : State) : (respond d r s).crc = s.crc := rfl
@[simp] theorem respond_status (d : Word) (r : Bool) (s : State) : (respond d r s).status = s.status := rfl
@[simp] theorem respond_exc (d : Word) (r : Bool) (s : State) : (respond d r s).exc = s.exc := rfl
@[simp] theorem respond_pcount (d : Word) (r : Bool) (s : State) : (respond d r s).pcount = s.pcount := rfl
@[simp] theorem respond_pword (d : Word) (r : Bool) (s : State) : (respond d r s).pword = s.pword := rfl
@[simp] theorem respond_txlen (d : Word) (r : Bool) (s : State) : (respond d r s).txlen = s.txlen := rfl
@[simp] theorem respond_txbuf (d : Word) (r : Bool) (s : State) : (respond d r s).txbuf = s.txbuf := rfl
@[simp] theorem respond_rxlen (d : Word) (r : Bool) (s : State) : (respond d r s).rxlen = s.rxlen := rfl
@[simp] theorem respond_rxbuf (d : Word) (r : Bool) (s : State) : (respond d r s).rxbuf = s.rxbuf := rfl
@[simp] theorem respond_params (d : Word) (r : Bool) (s : State) : (respond d r s).params = s.params := rfl
@[simp] theorem respond_events (d : Word) (r : Bool) (s : State) : (respond d r s).events = s.events := rfl
@[simp] theorem respond_rsp (d : Word) (r : Bool) (s : State) : (respond d r s).rsp = some { data := d, refused := r } := rfl
@[simp] theorem respond_draws (d : Word) (r : Bool) (s : State) : (respond d r s).draws = s.draws := rfl

@[simp] theorem issueCommand_slave (cw : Word) (s : State) : (issueCommand cw s).slave = s.slave := rfl
@[simp] theorem issueCommand_addr (cw : Word) (s : State) : (issueCommand cw s).addr = s.addr := rfl
@[simp] theorem issueCommand_arg (cw : Word) (s : State) : (issueCommand cw s).arg = s.arg := rfl
@[simp] theorem issueCommand_wdata (cw : Word) (s : State) : (issueCommand cw s).wdata = s.wdata := rfl
@[simp] theorem issueCommand_crc (cw : Word) (s : State) : (issueCommand cw s).crc = s.crc := rfl
@[simp] theorem issueCommand_status (cw : Word) (s : State) : (issueCommand cw s).status = s.status := rfl
@[simp] theorem issueCommand_exc (cw : Word) (s : State) : (issueCommand cw s).exc = s.exc := rfl
@[simp] theorem issueCommand_pcount (cw : Word) (s : State) : (issueCommand cw s).pcount = s.pcount := rfl
@[simp] theorem issueCommand_pword (cw : Word) (s : State) : (issueCommand cw s).pword = s.pword := rfl
@[simp] theorem issueCommand_txlen (cw : Word) (s : State) : (issueCommand cw s).txlen = s.txlen := rfl
@[simp] theorem issueCommand_txbuf (cw : Word) (s : State) : (issueCommand cw s).txbuf = s.txbuf := rfl
@[simp] theorem issueCommand_rxlen (cw : Word) (s : State) : (issueCommand cw s).rxlen = s.rxlen := rfl
@[simp] theorem issueCommand_rxbuf (cw : Word) (s : State) : (issueCommand cw s).rxbuf = s.rxbuf := rfl
@[simp] theorem issueCommand_params (cw : Word) (s : State) : (issueCommand cw s).params = s.params := rfl
@[simp] theorem issueCommand_events (cw : Word) (s : State) : (issueCommand cw s).events = commandEvent cw :: s.events := rfl
@[simp] theorem issueCommand_rsp (cw : Word) (s : State) : (issueCommand cw s).rsp = s.rsp := rfl
@[simp] theorem issueCommand_draws (cw : Word) (s : State) : (issueCommand cw s).draws = s.draws := rfl

@[simp] theorem loadFrame_slave (f : List Byte) (s : State) : (loadFrame f s).slave = s.slave := rfl
@[simp] theorem loadFrame_addr (f : List Byte) (s : State) : (loadFrame f s).addr = s.addr := rfl
@[simp] theorem loadFrame_arg (f : List Byte) (s : State) : (loadFrame f s).arg = s.arg := rfl
@[simp] theorem loadFrame_wdata (f : List Byte) (s : State) : (loadFrame f s).wdata = s.wdata := rfl
@[simp] theorem loadFrame_crc (f : List Byte) (s : State) : (loadFrame f s).crc = s.crc := rfl
@[simp] theorem loadFrame_status (f : List Byte) (s : State) : (loadFrame f s).status = s.status := rfl
@[simp] theorem loadFrame_exc (f : List Byte) (s : State) : (loadFrame f s).exc = s.exc := rfl
@[simp] theorem loadFrame_pcount (f : List Byte) (s : State) : (loadFrame f s).pcount = s.pcount := rfl
@[simp] theorem loadFrame_pword (f : List Byte) (s : State) : (loadFrame f s).pword = s.pword := rfl
@[simp] theorem loadFrame_txlen (f : List Byte) (s : State) : (loadFrame f s).txlen = s.txlen := rfl
@[simp] theorem loadFrame_txbuf (f : List Byte) (s : State) : (loadFrame f s).txbuf = s.txbuf := rfl
@[simp] theorem loadFrame_rxlen (f : List Byte) (s : State) : (loadFrame f s).rxlen = f.length := rfl
@[simp] theorem loadFrame_rxbuf (f : List Byte) (s : State) : (loadFrame f s).rxbuf = memWriteAll s.rxbuf 0 f := rfl
@[simp] theorem loadFrame_params (f : List Byte) (s : State) : (loadFrame f s).params = s.params := rfl
@[simp] theorem loadFrame_events (f : List Byte) (s : State) : (loadFrame f s).events = s.events := rfl
@[simp] theorem loadFrame_rsp (f : List Byte) (s : State) : (loadFrame f s).rsp = s.rsp := rfl
@[simp] theorem loadFrame_draws (f : List Byte) (s : State) : (loadFrame f s).draws = s.draws := rfl

@[simp] theorem applyReset_slave (s : State) : (applyReset s).slave = State.reset.slave := rfl
@[simp] theorem applyReset_addr (s : State) : (applyReset s).addr = State.reset.addr := rfl
@[simp] theorem applyReset_arg (s : State) : (applyReset s).arg = State.reset.arg := rfl
@[simp] theorem applyReset_wdata (s : State) : (applyReset s).wdata = State.reset.wdata := rfl
@[simp] theorem applyReset_crc (s : State) : (applyReset s).crc = State.reset.crc := rfl
@[simp] theorem applyReset_status (s : State) : (applyReset s).status = State.reset.status := rfl
@[simp] theorem applyReset_exc (s : State) : (applyReset s).exc = State.reset.exc := rfl
@[simp] theorem applyReset_pcount (s : State) : (applyReset s).pcount = State.reset.pcount := rfl
@[simp] theorem applyReset_pword (s : State) : (applyReset s).pword = State.reset.pword := rfl
@[simp] theorem applyReset_txlen (s : State) : (applyReset s).txlen = State.reset.txlen := rfl
@[simp] theorem applyReset_txbuf (s : State) : (applyReset s).txbuf = State.reset.txbuf := rfl
@[simp] theorem applyReset_rxlen (s : State) : (applyReset s).rxlen = State.reset.rxlen := rfl
@[simp] theorem applyReset_rxbuf (s : State) : (applyReset s).rxbuf = State.reset.rxbuf := rfl
@[simp] theorem applyReset_params (s : State) : (applyReset s).params = s.params := rfl
@[simp] theorem applyReset_events (s : State) : (applyReset s).events = s.events := rfl
@[simp] theorem applyReset_rsp (s : State) : (applyReset s).rsp = State.reset.rsp := rfl
@[simp] theorem applyReset_draws (s : State) : (applyReset s).draws = s.draws := rfl

@[simp] theorem turnAway_eq (s : State) : turnAway s = respond 0x0000#16 true s := rfl

end Sys2Proof.Machine
end

