-- ==== Sys2Proof/Laws/Ops.lean ====
section
/-! SUPPORT. What each shared operation can do, said once: the received frame, the frame built, the decoder's
outcome, an instruction's next state, a step's. Later proofs cite these and do not unfold the operations. -/

namespace Sys2Proof.Machine

/-! ### The received frame -/

@[simp] theorem rxFrame_length (s : State) : (rxFrame s).length = s.rxlen := by simp [rxFrame]

theorem rxFrame_getElem? (s : State) (i : Nat) :
    (rxFrame s)[i]? = if i < s.rxlen then some (rxByteAt s i) else none := by
  simp only [rxFrame, List.getElem?_map]
  split_ifs with h
  · rw [List.getElem?_range h]; rfl
  · rw [List.getElem?_eq_none (by simpa using h)]; rfl

theorem frameBody_rxFrame (s : State) : frameBody (rxFrame s) = (List.range (s.rxlen - 2)).map (rxByteAt s) := by
  rw [frameBody, rxFrame_length, rxFrame, ← List.map_take, List.take_range, Nat.min_eq_left (Nat.sub_le _ _)]

theorem frameTrailer_rxFrame (s : State) (h : 2 ≤ s.rxlen) :
    frameTrailer (rxFrame s) = be (rxByteAt s (s.rxlen - 1)) (rxByteAt s (s.rxlen - 2)) := by
  simp only [frameTrailer, rxFrame_length, List.getD, rxFrame_getElem?]
  rw [if_pos (by omega), if_pos (by omega)]
  rfl

/-- The verification of step 2 on the received bytes (42_decode R90). -/
theorem crcMatches_rxFrame (s : State) (h : 2 ≤ s.rxlen) :
    crcMatches (rxFrame s) = true ↔ rxCrc s = be (rxByteAt s (s.rxlen - 1)) (rxByteAt s (s.rxlen - 2)) := by
  rw [crcMatches, frameTrailer_rxFrame s h, frameBody_rxFrame, beq_iff_eq, rxCrc]

/-- What RXBUF reads as depends on RXBUF and RXLEN only. -/
theorem rxFrame_congr {s t : State} (hl : s.rxlen = t.rxlen) (hb : ∀ i < s.rxlen, rxByteAt s i = rxByteAt t i) :
    rxFrame s = rxFrame t := by
  unfold rxFrame
  rw [← hl]
  exact List.map_congr_left fun i hi => hb i (List.mem_range.mp hi)

/-- A loaded frame is the frame received. -/
theorem rxFrame_loadFrame (f : List Byte) (s : State) : rxFrame (loadFrame f s) = f := by
  apply List.ext_getElem?
  intro i
  rw [rxFrame_getElem?, loadFrame_rxlen]
  split_ifs with h
  · rw [rxByteAt, loadFrame_rxbuf, memFind_memWriteAll, if_pos (by omega), Nat.sub_zero,
      List.getElem?_eq_getElem h]
    rfl
  · rw [List.getElem?_eq_none (by omega)]

/-! ### The frame built -/

theorem bytesOfWords_eq_flatMap (ws : List Word) : bytesOfWords ws = ws.flatMap (fun w => [hi w, lo w]) := by
  induction ws with
  | nil => rfl
  | cons w ws ih => simp [bytesOfWords, ih]

/-- Building a frame does what 41_encode R75 says. -/
theorem buildFrame_builds (body : List Byte) (s : State) : Builds body s (buildFrame body s) := by
  refine ⟨fun j => ?_, by simp, rfl, rfl⟩
  rw [buildFrame_txbuf, memFind_memWriteAll, withTrailer_length]
  simp only [Nat.zero_le, true_and, Nat.zero_add, Nat.sub_zero]
  rfl

theorem filterMap_range_eq (f : Nat → Option α) (l : List α) (n : Nat) (hn : n = l.length)
    (h : ∀ i < n, f i = l[i]?) : (List.range n).filterMap f = l := by
  subst hn
  have h1 : (List.range l.length).map f = l.map some := by
    apply List.ext_getElem?
    intro i
    by_cases hi : i < l.length
    · simp [hi, h i hi]
    · simp [hi]
  calc (List.range l.length).filterMap f = ((List.range l.length).map f).filterMap id := by
        rw [List.filterMap_map]; rfl
    _ = l := by rw [h1, List.filterMap_map]; simp

/-- What the host reads out of TXBUF after a frame was built. -/
theorem txFrame_buildFrame (body : List Byte) (s : State) : txFrame (buildFrame body s) = withTrailer body := by
  refine filterMap_range_eq _ _ _ rfl fun i hi => ?_
  rw [buildFrame_txbuf, memFind_memWriteAll, if_pos ⟨Nat.zero_le _, by simpa using hi⟩, Nat.sub_zero]

/-! ### The words ENC_WRN reads -/

@[simp] theorem wdataWords_length (s : State) (n : Nat) : (wdataWords s n).length = n := by simp [wdataWords]

theorem wdataWords_getElem? (s : State) (n i : Nat) (hi : i < n) : (wdataWords s n)[i]? = some (wdataAt s i) := by
  simp only [wdataWords, List.getElem?_map, List.getElem?_range hi]; rfl

/-- A word the host wrote is read as written. -/
theorem wdataAt_written {s : State} {i : Nat} {w : Word} (h : memFind s.wdata i = some w) : wdataAt s i = w := by
  rw [wdataAt, h]; rfl

/-- Where every word was written, they are those words and no free value is drawn. -/
theorem wdataWords_written (s : State) (data : List Word) (h : ∀ i < data.length, memFind s.wdata i = data[i]?) :
    wdataWords s data.length = data ∧ wdataDraws s data.length = 0 := by
  have hw : ∀ i (hi : i < data.length), memFind s.wdata i = some data[i] := fun i hi => by
    rw [h i hi, List.getElem?_eq_getElem hi]
  refine ⟨List.ext_getElem? fun i => ?_, if_pos (List.all_eq_true.mpr fun i hi => ?_)⟩
  · by_cases hi : i < data.length
    · rw [wdataWords_getElem? s _ i hi, wdataAt_written (hw i hi), List.getElem?_eq_getElem hi]
    · rw [List.getElem?_eq_none (by simpa using hi), List.getElem?_eq_none (by simpa using hi)]
  · rw [hw i (by simpa using hi)]; rfl

/-- Everything ENC_WRN can come to. -/
theorem execEncWrn_cases (imm : Byte) (s : State) :
    (∃ r, exec (.encWrn imm) s = .refused r) ∨
    (s.params.hasFc10 = true ∧ 1 ≤ s.arg.toNat ∧ s.arg.toNat ≤ s.params.wmax ∧
      exec (.encWrn imm) s = .next (buildFrame (bodyRqWrn s.slave s.addr (wdataWords s s.arg.toNat))
        (drawValues (wdataDraws s s.arg.toNat) s))) := by
  show (∃ r, execEncWrn imm s = .refused r) ∨ (_ ∧ _ ∧ _ ∧ execEncWrn imm s = _)
  unfold execEncWrn
  split_ifs with hf hw
  · exact .inl ⟨_, rfl⟩
  · exact .inl ⟨_, rfl⟩
  · exact .inr ⟨by simpa using hf, by omega, by omega, rfl⟩

/-! ### The decoder -/

/-- A read response taken apart has at most 127 words, two bytes each between the byte count and the trailer
(42_decode R93). -/
theorem decodeResponse_read {e : Byte} {f : List Byte} {a : Byte} {ws : List Word}
    (h : decodeResponse e f = .ok (.read a ws)) : ws.length ≤ 127 ∧ 2 * ws.length + 5 = f.length := by
  unfold decodeResponse at h
  split_ifs at h with h5 hc
  have hl : (frameBody f).length = f.length - 2 := by rw [frameBody, List.length_take]; omega
  generalize frameBody f = b at h hl
  match b, h with
  | a :: g :: code :: rest, h =>
    simp only [List.length_cons] at hl
    simp only [decodeBody] at h
    by_cases h7 : g.getLsbD 7 = true
    · rw [if_pos h7] at h; cases h
    by_cases hg : g ≠ e
    · rw [if_neg h7, if_pos hg] at h; cases h
    rw [if_neg h7, if_neg hg] at h
    by_cases he : e = fcRead
    · rw [if_pos he, extractRead] at h
      split_ifs at h with hn ho
      injection h with h
      injection h with _ h
      subst h
      have := code.isLt
      have hodd : code.toNat % 2 = 0 := by
        simp only [BitVec.getLsbD, Nat.testBit_zero, decide_eq_true_eq] at ho
        omega
      rw [wordsOfBytes_length]
      omega
    · rw [if_neg he, extractWrite] at h
      split at h
      · cases h
      · split_ifs at h <;> cases h
  | [a, g], h => simp only [List.length_cons, List.length_nil] at hl; omega
  | [a], h => simp only [List.length_cons, List.length_nil] at hl; omega
  | [], h => simp only [List.length_nil] at hl; omega

/-- What DEC leaves: an error raised, or a response's effect, on CRC as step 2 left it. -/
theorem decFrame_cases (e : Byte) (s : State) :
    (∃ err, decodeResponse e (rxFrame s) = .error err ∧ decFrame e s = raiseError err (decCrc s)) ∨
    (∃ r, decodeResponse e (rxFrame s) = .ok r ∧ decFrame e s = applyResponse r (decCrc s)) := by
  unfold decFrame
  cases h : decodeResponse e (rxFrame s) with
  | error err => exact .inl ⟨err, rfl, rfl⟩
  | ok r => exact .inr ⟨r, rfl, rfl⟩

/-- A response's effect: a payload delivered or the device's error raised. -/
theorem applyResponse_cases (r : Response) (s : State) :
    (∃ ws, applyResponse r s = deliver ws s) ∨ (∃ c, applyResponse r s = raiseError (.exceptionResponse c) s) := by
  cases r with
  | read a ws => exact .inl ⟨_, rfl⟩
  | wr1 a r v => exact .inl ⟨_, rfl⟩
  | wrn a st n => exact .inl ⟨_, rfl⟩
  | exc a fc c rest => exact .inr ⟨_, rfl⟩

theorem decCrc_cases (s : State) : decCrc s = s ∨ ∃ c, decCrc s = setCrc c s := by
  unfold decCrc
  split
  · exact .inl rfl
  · exact .inr ⟨_, rfl⟩

theorem decCrc_short (s : State) (h : s.rxlen < 5) : decCrc s = s := if_pos h

theorem decCrc_long (s : State) (h : 5 ≤ s.rxlen) : decCrc s = setCrc (rxCrc s) s := by
  rw [decCrc, if_neg (by omega), frameBody_rxFrame]; rfl

theorem execDec_admitted (e : Byte) (s : State) (h : admitted s.params e) :
    exec (.dec e) s = .next (decFrame e s) := by
  have h1 : ¬ (e ≠ fcRead ∧ e ≠ fcWr1 ∧ e ≠ fcWrn) := by
    rintro ⟨h3, h6, h10⟩
    rcases h with rfl | rfl | ⟨rfl, _⟩
    · exact h3 rfl
    · exact h6 rfl
    · exact h10 rfl
  have h2 : ¬ (e = fcWrn ∧ s.params.hasFc10 = false) := by
    rintro ⟨rfl, hf⟩
    rcases h with h | h | ⟨_, h⟩
    · exact absurd h (by decide)
    · exact absurd h (by decide)
    · rw [hf] at h; exact absurd h (by decide)
  show execDec e s = _
  rw [execDec, if_neg h1, if_neg h2]

theorem execDec_next (e : Byte) (s t : State) (h : exec (.dec e) s = .next t) :
    admitted s.params e ∧ t = decFrame e s := by
  change execDec e s = _ at h
  unfold execDec at h
  split_ifs at h with h1 h2
  refine ⟨?_, (Host.Outcome.next.inj h).symm⟩
  simp only [not_and_or, not_not] at h1 h2
  rcases h1 with h1 | h1 | h1
  · exact .inl h1
  · exact .inr (.inl h1)
  · refine .inr (.inr ⟨h1, ?_⟩)
    rcases h2 with h2 | h2
    · exact absurd h1 h2
    · simpa using h2

/-! ### An instruction's next state, a step's -/

/-- Everything an instruction that completes can have done. -/
theorem exec_next_cases {i : Instr} {s t : State} (h : exec i s = .next t) :
    (∃ c, t = setCrc c s ∧ encodes i = false ∧ receives i = false) ∨
    (∃ body k, t = buildFrame body (drawValues k s) ∧ encodes i = true ∧ (k = 0 ∨ ∃ imm, i = .encWrn imm)) ∨
    (t = { s with rxlen := 0 } ∧ receives i = true) ∨
    (∃ b, t = { s with rxbuf := memWrite s.rxbuf s.rxlen b, rxlen := s.rxlen + 1 } ∧ receives i = true ∧
      s.rxlen < s.params.frameMax) ∨
    (∃ e, t = decFrame e s ∧ admitted s.params e ∧ decodes i = true) ∨
    (∃ r, t = takeResponse r s ∧ decodes i = true) := by
  cases i with
  | crcInit imm => exact .inl ⟨_, (Host.Outcome.next.inj h).symm, rfl, rfl⟩
  | crcByte imm => exact .inl ⟨_, (Host.Outcome.next.inj h).symm, rfl, rfl⟩
  | encRead imm => exact .inr (.inl ⟨_, 0, (Host.Outcome.next.inj h).symm, rfl, .inl rfl⟩)
  | encWr1 imm => exact .inr (.inl ⟨_, 0, (Host.Outcome.next.inj h).symm, rfl, .inl rfl⟩)
  | encWrn imm =>
    rcases execEncWrn_cases imm s with ⟨r, hr⟩ | ⟨_, _, _, hn⟩
    · rw [hr] at h; cases h
    · rw [hn] at h
      exact .inr (.inl ⟨_, _, (Host.Outcome.next.inj h).symm, rfl, .inr ⟨imm, rfl⟩⟩)
  | rxClear imm => exact .inr (.inr (.inl ⟨(Host.Outcome.next.inj h).symm, rfl⟩))
  | rxByte imm =>
    change execRxByte imm s = _ at h
    unfold execRxByte at h
    split_ifs at h with hf
    exact .inr (.inr (.inr (.inl ⟨_, (Host.Outcome.next.inj h).symm, rfl, by omega⟩)))
  | dec imm =>
    obtain ⟨ha, rfl⟩ := execDec_next imm s t h
    exact .inr (.inr (.inr (.inr (.inl ⟨_, rfl, ha, rfl⟩))))
  | rqRead a st c => exact .inr (.inl ⟨_, 0, (Host.Outcome.next.inj h).symm, rfl, .inl rfl⟩)
  | rqWr1 a r v => exact .inr (.inl ⟨_, 0, (Host.Outcome.next.inj h).symm, rfl, .inl rfl⟩)
  | rqWrn a st d =>
    change execRqWrn a st d s = _ at h
    unfold execRqWrn at h
    split_ifs at h
    exact .inr (.inl ⟨_, 0, (Host.Outcome.next.inj h).symm, rfl, .inl rfl⟩)
  | rsRead a ws =>
    change execRsRead a ws s = _ at h
    unfold execRsRead at h
    split_ifs at h
    exact .inr (.inr (.inr (.inr (.inr ⟨_, (Host.Outcome.next.inj h).symm, rfl⟩))))
  | rsWr1 a r v => exact .inr (.inr (.inr (.inr (.inr ⟨_, (Host.Outcome.next.inj h).symm, rfl⟩))))
  | rsWrn a st n =>
    change execRsWrn a st n s = _ at h
    unfold execRsWrn at h
    split_ifs at h
    exact .inr (.inr (.inr (.inr (.inr ⟨_, (Host.Outcome.next.inj h).symm, rfl⟩))))
  | rsExc a fc c rest =>
    change execRsExc a fc c rest s = _ at h
    unfold execRsExc at h
    split_ifs at h
    exact .inr (.inr (.inr (.inr (.inr ⟨_, (Host.Outcome.next.inj h).symm, rfl⟩))))

/-- A command word decodes to one of the eight commands. -/
theorem decodeCommand_ok {cw : Word} {i : Instr} (h : decodeCommand cw = .ok i) :
    cwZero cw = 0#5 ∧ i = decodeOp (cwOp cw) (cwImm cw) := by
  unfold decodeCommand at h
  split_ifs at h with hz
  exact ⟨hz, by injection h with h; exact h.symm⟩

/-- A command word decodes to its instruction. -/
@[simp] theorem decodeCommand_commandWord (op : BitVec 3) (imm : Byte) :
    decodeCommand (commandWord op imm) = .ok (decodeOp op imm) := by
  simp [decodeCommand]

/-- A CMD request always comes to a next state: the command turned away, or run and answered. -/
theorem serveCommand_cases (cw : Word) (s : State) :
    (serveCommand cw s = .next (turnAway s)) ∨
    (∃ i t, decodeCommand cw = .ok i ∧ exec i s = .next t ∧
      serveCommand cw s = .next (respond 0x0000#16 false t)) := by
  cases h : decodeCommand cw with
  | error e => left; simp only [serveCommand, h]
  | ok i =>
    cases hx : exec i s with
    | next t => right; exact ⟨i, t, rfl, hx, by simp only [serveCommand, h, hx, finishCommand]⟩
    | fault f => cases f
    | refused r => left; simp only [serveCommand, h, hx, finishCommand]

/-- Everything a request can come to. -/
theorem serveRequest_cases (kind : BitVec 2) (a : BitVec 12) (d : Word) (s : State) :
    serveRequest kind a d s = .next (serveRead a.toNat s) ∨
    serveRequest kind a d s = .next (serveWrite a.toNat d s) ∨
    serveRequest kind a d s = serveCommand d s ∨
    serveRequest kind a d s = .next (turnAway s) := by
  unfold serveRequest
  split <;> simp

/-- Everything a step can come to. -/
theorem step_cases (s : State) :
    (s.events = [] ∧ step s = .next s) ∨
    (∃ rest, s.events = .reset :: rest ∧ step s = .next (applyReset { s with events := rest })) ∨
    (∃ k a d rest, s.events = .request k a d :: rest ∧
      step s = serveRequest k a d { s with events := rest }) := by
  unfold step serveNext
  cases h : s.events with
  | nil => exact .inl ⟨rfl, rfl⟩
  | cons ev rest =>
    cases ev with
    | reset => exact .inr (.inl ⟨rest, rfl, rfl⟩)
    | request k a d => exact .inr (.inr ⟨k, a, d, rest, rfl, rfl⟩)

/-- A read answers the host and counts the free values drawn; it changes nothing else. -/
theorem serveRead_eq (n : Nat) (s : State) :
    ∃ r k, serveRead n s = { s with rsp := r, draws := k } := by
  unfold serveRead
  split
  · exact ⟨_, s.draws, rfl⟩
  · exact ⟨_, s.draws + 1, rfl⟩

end Sys2Proof.Machine
end

