-- ==== Sys2Proof/Laws/Host.lean ====
section
/-! SUPPORT. What the host's lists of bus operations do to the block, said once: a command accepted, a frame
loaded, a response decoded, a read request built; and that a value of the host that is encoded decodes to itself. -/

namespace Sys2Proof.Machine

theorem hostRun_cons (ev : HostEvent) (evs : List HostEvent) (s : State) :
    hostRun (ev :: evs) s = hostRun evs (hostDo s ev) := rfl

theorem hostRun_append (xs ys : List HostEvent) (s : State) : hostRun (xs ++ ys) s = hostRun ys (hostRun xs s) :=
  List.foldl_append ..

/-- A command that exec accepts is run and answered. -/
theorem hostDo_command {op : BitVec 3} {imm : Byte} {s t : State} (h : exec (decodeOp op imm) s = .next t) :
    hostDo s (cmdEvent op imm) = respond 0x0000#16 false t := by
  have hs : serveEvent (cmdEvent op imm) s = .next (respond 0x0000#16 false t) := by
    show serveCommand (commandWord op imm) s = _
    rw [serveCommand, decodeCommand_commandWord]
    simp only [h, finishCommand]
  rw [hostDo, hs]

/-- RX_BYTE for each byte of a sequence that fits: they stand in RXBUF after the bytes already there. -/
theorem hostRun_rxBytes (bs : List Byte) : ∀ s : State, s.rxlen + bs.length ≤ s.params.frameMax →
    ∃ r, hostRun (bs.map (cmdEvent 6#3)) s =
      { s with rxbuf := memWriteAll s.rxbuf s.rxlen bs, rxlen := s.rxlen + bs.length, rsp := r } := by
  induction bs with
  | nil => exact fun s _ => ⟨s.rsp, rfl⟩
  | cons b bs ih =>
    intro s h
    simp only [List.length_cons] at h
    have hx : exec (decodeOp 6#3 b) s =
        .next { s with rxbuf := memWrite s.rxbuf s.rxlen b, rxlen := s.rxlen + 1 } := if_neg (by omega)
    obtain ⟨r, hr⟩ := ih
      (respond 0x0000#16 false { s with rxbuf := memWrite s.rxbuf s.rxlen b, rxlen := s.rxlen + 1 })
      (by show s.rxlen + 1 + _ ≤ s.params.frameMax; omega)
    refine ⟨r, ?_⟩
    rw [List.map_cons, hostRun_cons, hostDo_command hx, hr]
    simp [memWriteAll, Nat.add_assoc, Nat.add_comm 1]

/-- RX_LOAD of a sequence that fits leaves exactly it in RXBUF (30_encoding R61). -/
theorem hostRun_rxLoad (bs : List Byte) (s : State) (h : bs.length ≤ s.params.frameMax) :
    ∃ r, hostRun (rxLoadEvents bs) s = { loadFrame bs s with rsp := r } := by
  have h0 : hostDo s (cmdEvent 5#3 0#8) = respond 0x0000#16 false { s with rxlen := 0 } :=
    hostDo_command (op := 5#3) (imm := 0#8) rfl
  obtain ⟨r, hr⟩ := hostRun_rxBytes bs (respond 0x0000#16 false { s with rxlen := 0 })
    (by show 0 + _ ≤ s.params.frameMax; omega)
  refine ⟨r, ?_⟩
  rw [rxLoadEvents, hostRun_cons, h0, hr]
  simp [loadFrame]

/-- DECODE_RESPONSE under an admitted code: DEC's effect on a state whose received frame is those bytes, and the
answer that it was accepted (30_encoding R61). -/
theorem hostRun_decodeResponse (e : Byte) (bs : List Byte) (s : State) (ha : admitted s.params e)
    (h : bs.length ≤ s.params.frameMax) :
    ∃ r, hostRun (decodeResponseEvents e bs) s =
      respond 0x0000#16 false (decFrame e { loadFrame bs s with rsp := r }) := by
  obtain ⟨r, hr⟩ := hostRun_rxLoad bs s h
  refine ⟨r, ?_⟩
  rw [decodeResponseEvents, hostRun_append, hr]
  exact hostDo_command (op := 7#3) (execDec_admitted e { loadFrame bs s with rsp := r } ha)

@[simp] theorem lo_zext16 (b : Byte) : lo (zext16 b) = b := by
  apply BitVec.eq_of_getLsbD_eq
  intro i hi
  rw [lo, BitVec.getLsbD_extractLsb', zext16, BitVec.getLsbD_setWidth]
  simp [hi]; omega

/-- The three operand writes leave their values in SLAVE, ADDR and ARG. -/
theorem hostRun_operands (a : Byte) (x y : Word) (s : State) :
    ∃ r, hostRun (operandEvents a x y) s = { s with slave := a, addr := x, arg := y, rsp := r } := by
  refine ⟨some { data := 0x0000#16, refused := false }, ?_⟩
  show respond 0x0000#16 false (writeReg y (respond 0x0000#16 false (writeReg x (respond 0x0000#16 false
    (writeReg (zext16 a) s .slave)) .addr)) .arg) = _
  simp only [writeReg, respond, lo_zext16]

/-- ENCODE_READ builds the RQ_READ frame (30_encoding R61). -/
theorem hostRun_encodeRead (a : Byte) (x y : Word) (s : State) :
    ∃ r, hostRun (encodeReadEvents a x y) s =
      { buildFrame (bodyRqRead a x y) s with slave := a, addr := x, arg := y, rsp := r } := by
  obtain ⟨r, hr⟩ := hostRun_operands a x y s
  refine ⟨some { data := 0x0000#16, refused := false }, ?_⟩
  rw [encodeReadEvents, hostRun_append, hr]
  exact hostDo_command (op := 2#3) (imm := 0#8) rfl

/-- ENCODE_WRITE_SINGLE builds the RQ_WR1 frame (30_encoding R61). -/
theorem hostRun_encodeWriteSingle (a : Byte) (x y : Word) (s : State) :
    ∃ r, hostRun (encodeWriteSingleEvents a x y) s =
      { buildFrame (bodyRqWr1 a x y) s with slave := a, addr := x, arg := y, rsp := r } := by
  obtain ⟨r, hr⟩ := hostRun_operands a x y s
  refine ⟨some { data := 0x0000#16, refused := false }, ?_⟩
  rw [encodeWriteSingleEvents, hostRun_append, hr]
  exact hostDo_command (op := 3#3) (imm := 0#8) rfl

/-- A WR of WDATA[i] writes it where the block has it, and otherwise nothing (10_state R27). -/
theorem hostDo_wdata (i : Nat) (w : Word) (s : State) :
    ∃ r, hostDo s (wrEvent (wdataNumber i) w) =
      { s with
        wdata := if s.params.hasFc10 = true ∧ i < s.params.wmax then memWrite s.wdata i w else s.wdata
        rsp := r } := by
  have hmax : s.params.wmax ≤ 127 := Nat.min_le_left _ _
  refine ⟨some { data := 0x0000#16, refused := false }, ?_⟩
  show serveWrite (wdataNumber i).toNat w s = _
  by_cases hi : i < 0x80
  · have hn : (wdataNumber i).toNat = 0x100 + i := by
      rw [wdataNumber, if_pos hi, BitVec.toNat_ofNat, Nat.mod_eq_of_lt (by omega)]
    rw [serveWrite, hn, regOf, if_neg (by omega), if_pos (by omega), Nat.add_sub_cancel_left]
    split_ifs <;> rfl
  · rw [wdataNumber, if_neg hi, if_neg (by omega)]; rfl

/-- A number that has an unsigned RawValue is that RawValue's number. -/
theorem toNat_of_rawOfNat? {n : Nat} {q : ℚ} {r : BitVec n} (h : rawOfNat? q = some r) : (r.toNat : ℚ) = q := by
  unfold rawOfNat? at h
  split at h
  · next hc =>
    obtain ⟨hd, h0, h1⟩ := hc
    cases h
    have hn : (BitVec.ofInt n q.num).toNat = q.num.toNat := by
      rw [BitVec.toNat_ofInt, Int.emod_eq_of_lt h0 (by push_cast; exact h1)]
    rw [hn, ← Int.cast_natCast, Int.toNat_of_nonneg h0]
    exact (Rat.den_eq_one_iff q).mp hd
  · cases h

/-- A number that has a two's-complement RawValue is that RawValue's number. -/
theorem toInt_of_rawOfInt? {n : Nat} {q : ℚ} {r : BitVec n} (h : rawOfInt? q = some r) : (r.toInt : ℚ) = q := by
  unfold rawOfInt? at h
  split at h
  · next hc =>
    obtain ⟨hd, h0, h1⟩ := hc
    cases h
    have hz : (BitVec.ofInt n q.num).toInt = q.num := by
      rw [BitVec.toInt_ofInt]
      rcases n with _ | n
      · simp at *; omega
      · apply Int.bmod_eq_of_le_mul_two <;> push_cast <;> omega
    rw [hz]
    exact (Rat.den_eq_one_iff q).mp hd
  · cases h

/-- A value that is encoded has a scale that divides, and its RawValue decodes to it (43_host_layers R103). -/
theorem decodeValue_of_encodeValue {n : Nat} {e : ValueEncoding} {v : ℚ} {r : BitVec n}
    (h : encodeValue e v = some r) : e ≠ .fixedPoint 0 ∧ decodeValue e r = v := by
  cases e with
  | unsigned16 => exact ⟨by simp, toNat_of_rawOfNat? h⟩
  | signed16 => exact ⟨by simp, toInt_of_rawOfInt? h⟩
  | fixedPoint k =>
    simp only [encodeValue] at h
    split at h
    · cases h
    · next hk => exact ⟨by simp [hk], by rw [decodeValue, toInt_of_rawOfInt? h]; field_simp⟩

theorem halves_append (r : BitVec 32) : (r.extractLsb' 16 16 ++ r.extractLsb' 0 16 : BitVec 32) = r := by
  apply BitVec.eq_of_getLsbD_eq
  intro i hi
  simp only [BitVec.getLsbD_append, BitVec.getLsbD_extractLsb']
  by_cases h : i < 16
  · simp [h]
  · simp [h]; rw [show 16 + (i - 16) = i by omega]; simp; omega

/-- The two words a RawValue is written as are read back as it, whichever order the register has. -/
theorem splitRaw_cases (address : Word) (r : BitVec 32) :
    ∃ w0 w1, splitRaw address r = [w0, w1] ∧ joinWords address w0 w1 = r := by
  unfold splitRaw joinWords
  split <;> exact ⟨_, _, rfl, halves_append r⟩

/-- What the host makes of a reply it has loaded and decoded is `decode_response` of it (43_host_layers R107). -/
theorem decodeOutcome_decodeResponse (frame : List Byte) (e : Byte) (bs : List Byte) (s : State)
    (ha : admitted s.params e) (h : bs.length ≤ s.params.frameMax) :
    decodeOutcome frame (hostRun (decodeResponseEvents e bs) s) =
      match decodeResult e bs with
      | .ok ws => .decoded ws
      | .error err => .failed (.block err) := by
  obtain ⟨r, hr⟩ := hostRun_decodeResponse e bs s ha h
  have hf : rxFrame { loadFrame bs s with rsp := r } = bs := rxFrame_loadFrame bs { s with rsp := r }
  rw [hr]
  generalize ({ loadFrame bs s with rsp := r } : State) = u at hf ⊢
  have key : ∀ ws : List Word, ws.length ≤ 127 →
      decodeOutcome frame (respond 0x0000#16 false (deliver ws (decCrc u))) = .decoded ws := by
    intro ws hw
    refine congrArg TxnState.decoded (filterMap_range_eq _ _ _ (by simp; omega) fun i hi => ?_)
    have hi : i < ws.length := by simp at hi; omega
    simp only [respond_pword, deliver_pword, memFind_memWriteAll]
    rw [if_pos (by omega)]; rfl
  rcases decFrame_cases e u with ⟨err, h1, h2⟩ | ⟨res, h1, h2⟩ <;> rw [hf] at h1 <;> rw [h2, decodeResult, h1]
  · cases err <;> rfl
  · cases res with
    | read a ws => exact key ws (decodeResponse_read h1).1
    | wr1 a x y => exact key [x, y] (by simp)
    | wrn a x y => exact key [x, y] (by simp)
    | exc a g c rest => rfl

end Sys2Proof.Machine
end

