-- ==== Sys2Proof/Laws/PerInstr.lean ====
section
/-! SUPPORT. One statement per instruction, over its encoding alone: the words it encodes to carry the fixed
bits of its row of spec/opcode_table.json. -/

namespace Sys2Proof.Laws.TableRow

open Sys2Proof.Machine

/-- What a row's match looks at: the command word, or the byte at offset 1 of a frame (30_encoding R54). -/
def matchBits : Packet → Word
  | .command cw => cw
  | .request f => zext16 (ownCode f)
  | .response f => zext16 (ownCode f)

/-- The mask of an instruction's row. -/
def rowMask : Instr → Word
  | .crcInit _ => 0xFF00#16
  | .crcByte _ => 0xFF00#16
  | .encRead _ => 0xFF00#16
  | .encWr1 _ => 0xFF00#16
  | .encWrn _ => 0xFF00#16
  | .rxClear _ => 0xFF00#16
  | .rxByte _ => 0xFF00#16
  | .dec _ => 0xFF00#16
  | .rqRead _ _ _ => 0x00FF#16
  | .rqWr1 _ _ _ => 0x00FF#16
  | .rqWrn _ _ _ => 0x00FF#16
  | .rsRead _ _ => 0x00FF#16
  | .rsWr1 _ _ _ => 0x00FF#16
  | .rsWrn _ _ _ => 0x00FF#16
  | .rsExc _ _ _ _ => 0x0080#16

/-- The match of an instruction's row. -/
def rowMatch : Instr → Word
  | .crcInit _ => 0x0000#16
  | .crcByte _ => 0x0100#16
  | .encRead _ => 0x0200#16
  | .encWr1 _ => 0x0300#16
  | .encWrn _ => 0x0400#16
  | .rxClear _ => 0x0500#16
  | .rxByte _ => 0x0600#16
  | .dec _ => 0x0700#16
  | .rqRead _ _ _ => 0x0003#16
  | .rqWr1 _ _ _ => 0x0006#16
  | .rqWrn _ _ _ => 0x0010#16
  | .rsRead _ _ => 0x0003#16
  | .rsWr1 _ _ _ => 0x0006#16
  | .rsWrn _ _ _ => 0x0010#16
  | .rsExc _ _ _ _ => 0x0080#16

/-- The encoding of an instruction matches its row. -/
def Statement (i : Instr) : Prop := matchBits (encode i) &&& rowMask i = rowMatch i

/-- The upper byte of a command word is its opcode. -/
theorem commandWord_upper (op : BitVec 3) (imm : Byte) :
    commandWord op imm &&& 0xFF00#16 = commandWord op 0#8 := by
  apply BitVec.eq_of_getLsbD_eq
  intro i hi
  rw [BitVec.getLsbD_and, commandWord_getLsbD, commandWord_getLsbD]
  have hm : (0xFF00#16).getLsbD i = decide (8 ≤ i) := by
    revert i; decide
  rw [hm]
  split_ifs with h8 h11
  · simp [show ¬ 8 ≤ i by omega]
  · simp [show 8 ≤ i by omega]
  · simp

/-- A frame's function code is its body's byte 1. -/
theorem matches_of_body (a f : Byte) (d : List Byte) (mask m : Word) (h : zext16 f &&& mask = m) :
    zext16 (ownCode (withTrailer (a :: f :: d))) &&& mask = m := h

theorem crcInit (imm : Byte) : Statement (.crcInit imm) := commandWord_upper 0#3 imm
theorem crcByte (imm : Byte) : Statement (.crcByte imm) := commandWord_upper 1#3 imm
theorem encRead (imm : Byte) : Statement (.encRead imm) := commandWord_upper 2#3 imm
theorem encWr1 (imm : Byte) : Statement (.encWr1 imm) := commandWord_upper 3#3 imm
theorem encWrn (imm : Byte) : Statement (.encWrn imm) := commandWord_upper 4#3 imm
theorem rxClear (imm : Byte) : Statement (.rxClear imm) := commandWord_upper 5#3 imm
theorem rxByte (imm : Byte) : Statement (.rxByte imm) := commandWord_upper 6#3 imm
theorem dec (imm : Byte) : Statement (.dec imm) := commandWord_upper 7#3 imm
theorem rqRead (a : Byte) (start count : Word) : Statement (.rqRead a start count) :=
  matches_of_body a fcRead _ 0x00FF#16 0x0003#16 (by decide)
theorem rqWr1 (a : Byte) (reg val : Word) : Statement (.rqWr1 a reg val) :=
  matches_of_body a fcWr1 _ 0x00FF#16 0x0006#16 (by decide)
theorem rqWrn (a : Byte) (start : Word) (data : List Word) : Statement (.rqWrn a start data) :=
  matches_of_body a fcWrn _ 0x00FF#16 0x0010#16 (by decide)
theorem rsRead (a : Byte) (words : List Word) : Statement (.rsRead a words) :=
  matches_of_body a fcRead _ 0x00FF#16 0x0003#16 (by decide)
theorem rsWr1 (a : Byte) (reg val : Word) : Statement (.rsWr1 a reg val) :=
  matches_of_body a fcWr1 _ 0x00FF#16 0x0006#16 (by decide)
theorem rsWrn (a : Byte) (start n : Word) : Statement (.rsWrn a start n) :=
  matches_of_body a fcWrn _ 0x00FF#16 0x0010#16 (by decide)

theorem rsExc (a : Byte) (fc : BitVec 7) (code : Byte) (rest : List Byte) : Statement (.rsExc a fc code rest) := by
  have h : ∀ fc : BitVec 7, zext16 (1#1 ++ fc) &&& 0x0080#16 = 0x0080#16 := by decide
  exact matches_of_body a _ _ _ _ (h fc)

end Sys2Proof.Laws.TableRow
end

