-- ==== Sys2Proof/Tests/Slice0.lean ====
section
/-! SUPPORT. Tests on fixed values, their expected results written out from the spec (95_test_vectors, by the
vector's name), and for every statement with hypotheses a named witness that they can be met. -/

namespace Sys2Proof.Tests

open Sys2Proof.Machine

-- one test at a time: many kernel evaluations at once run out of threads under the check's memory limit
set_option Elab.async false

/-! ### Helpers -/

/-- The next state, if there is one. -/
def after : Host.Outcome State Fault Refusal → Option State
  | .next t => some t
  | _ => none

/-- The refusal, if there is one. -/
def refusalOf : Host.Outcome State Fault Refusal → Option Refusal
  | .refused r => some r
  | _ => none

/-- An outcome that evaluates to a next state with a property is one. -/
theorem next_with {o : Host.Outcome State Fault Refusal} {P : State → Prop} [DecidablePred P]
    (h : (after o).any (fun t => decide (P t)) = true) : ∃ t, o = .next t ∧ P t := by
  cases o with
  | next t => exact ⟨t, rfl, by simpa [after] using h⟩
  | fault f => cases f
  | refused r => simp [after] at h

/-- A block without function code 0x10. -/
def bare : State := { State.reset with params := { hasFc10 := false } }

/-- Operands of EV11: slave 0x01, register 0x0001, two words. -/
def writeReady : State :=
  { State.reset with slave := 0x01, addr := 0x0001, arg := 0x0002, wdata := [(0, 0x00EB), (1, 0xFF9C)] }

/-- The first `n` elements of WDATA written with their index and ARG = n (EV12 for n = 123). -/
def wordsReady (n : Nat) : State :=
  { State.reset with
    slave := 0x01, arg := BitVec.ofNat 16 n, wdata := (List.range n).map fun i => (i, BitVec.ofNat 16 i) }

/-- A frame received, with the sentinel of 95_test_vectors section 2.5 in CRC. -/
def received (f : List Byte) : State := loadFrame f { State.reset with crc := 0x1234#16 }

/-- A receive buffer of `n` zero bytes. -/
def filled (n : Nat) : State := received (List.replicate n 0x00)

/-- DV1, the source's read response. -/
def readReply : List Byte := [0x01, 0x03, 0x02, 0x00, 0xEB, 0xF8, 0x0B]

/-- DV6, the source's exception response. -/
def excReply : List Byte := [0x01, 0x83, 0x02, 0xC0, 0xF1]

/-- DV14, a write echo. -/
def writeReply : List Byte := [0x01, 0x06, 0x00, 0x01, 0x00, 0xEB, 0x98, 0x45]

/-- DV16, a write-multiple echo. -/
def wrnReply : List Byte := [0x01, 0x10, 0x00, 0x01, 0x00, 0x02, 0x10, 0x08]

/-- What a DEC shows the host: STATUS, EXC, PCOUNT, the payload, CRC. -/
structure Shown where
  status : BitVec 4
  exc : Byte
  pcount : BitVec 8
  payload : List Word
  crc : Word
deriving DecidableEq, Repr

/-- What DEC shows after a frame has been received. -/
def shown (e : Byte) (f : List Byte) : Option Shown :=
  (after (exec (.dec e) (received f))).map fun t => ⟨t.status.code, t.exc, t.pcount, payloadWords t, t.crc⟩

/-! ### Well-formedness -/

theorem test_wf_rqWrn_empty : (Instr.rqWrn 0x01 0x0001 []).wellFormed = false := by decide
theorem test_wf_rqWrn_long : (Instr.rqWrn 0x01 0x0001 (List.replicate 128 0x0000)).wellFormed = false := by
  decide +kernel
theorem test_wf_rsRead_long : (Instr.rsRead 0x01 (List.replicate 128 0x0000)).wellFormed = false := by
  decide +kernel
theorem test_wf_rsExc_rest : (Instr.rsExc 0x01 0x03 0x02 [0x00]).wellFormed = false := by decide
theorem test_wf_ok : (Instr.rqWrn 0x01 0x0001 [0x00EB]).wellFormed = true ∧
    (Instr.rsRead 0x01 []).wellFormed = true ∧ (Instr.dec 0x04).wellFormed = true := by decide

/-! ### Decoding: words and frames written out from 30_encoding -/

-- cw = 00000 op imm8, R55 and R56
theorem test_decode_crcInit : decode (.command 0b0000000000000000#16) = .ok (.crcInit 0x00) := by rfl
theorem test_decode_crcByte : decode (.command 0b0000000101010110#16) = .ok (.crcByte 0x56) := by rfl
theorem test_decode_encRead : decode (.command 0b0000001000000000#16) = .ok (.encRead 0x00) := by rfl
theorem test_decode_encWr1 : decode (.command 0b0000001100000001#16) = .ok (.encWr1 0x01) := by rfl
theorem test_decode_encWrn : decode (.command 0b0000010000000000#16) = .ok (.encWrn 0x00) := by rfl
theorem test_decode_rxClear : decode (.command 0b0000010111111111#16) = .ok (.rxClear 0xFF) := by rfl
theorem test_decode_rxByte : decode (.command 0b0000011011101011#16) = .ok (.rxByte 0xEB) := by rfl
theorem test_decode_dec : decode (.command 0b0000011100010000#16) = .ok (.dec 0x10) := by rfl
theorem test_decode_reserved : decode (.command 0b0000100000000000#16) = .error .reservedBits ∧
    decode (.command 0b1000000000000000#16) = .error .reservedBits := ⟨rfl, rfl⟩

-- the frames of EV3, EV9, EV11 and of DV2, DV14, DV16, DV6, DV7
theorem test_decode_rqRead : (decode (.request [0x11, 0x03, 0x00, 0x6B, 0x00, 0x03, 0x76, 0x87])).toOption =
    some (.rqRead 0x11 0x006B 0x0003) := by decide +kernel
theorem test_decode_rqWr1 : (decode (.request [0xF7, 0x06, 0x12, 0x34, 0xAB, 0xCD, 0x67, 0x4F])).toOption =
    some (.rqWr1 0xF7 0x1234 0xABCD) := by decide +kernel
theorem test_decode_rqWrn :
    (decode (.request [0x01, 0x10, 0x00, 0x01, 0x00, 0x02, 0x04, 0x00, 0xEB, 0xFF, 0x9C, 0x03, 0xCE])).toOption =
    some (.rqWrn 0x01 0x0001 [0x00EB, 0xFF9C]) := by decide +kernel
theorem test_decode_rsRead :
    (decode (.response [0x01, 0x03, 0x04, 0x00, 0xEB, 0xFF, 0x9C, 0xCB, 0x9E])).toOption =
    some (.rsRead 0x01 [0x00EB, 0xFF9C]) := by decide +kernel
theorem test_decode_rsWr1 : (decode (.response writeReply)).toOption = some (.rsWr1 0x01 0x0001 0x00EB) := by
  decide +kernel
theorem test_decode_rsWrn : (decode (.response wrnReply)).toOption = some (.rsWrn 0x01 0x0001 0x0002) := by
  decide +kernel
theorem test_decode_rsExc : (decode (.response excReply)).toOption = some (.rsExc 0x01 0x03 0x02 []) ∧
    (decode (.response [0x01, 0x83, 0x02, 0x00, 0xF1, 0x50])).toOption = some (.rsExc 0x01 0x03 0x02 [0x00]) := by
  decide +kernel
-- DV22, the trailer's bytes in the wrong order
theorem test_decode_wrong_order :
    (decode (.response [0x01, 0x03, 0x02, 0x00, 0xEB, 0x0B, 0xF8])).toOption = none := by decide +kernel

-- every command row by its match, every response row by its function code (log 13)
theorem test_table_commands : [0x0000, 0x0100, 0x0200, 0x0300, 0x0400, 0x0500, 0x0600, 0x0700].map
    (decodeTableWord 16) = [some (.crcInit 0), some (.crcByte 0), some (.encRead 0), some (.encWr1 0),
      some (.encWrn 0), some (.rxClear 0), some (.rxByte 0), some (.dec 0)] := by decide +kernel
theorem test_table_frames : [0x03, 0x06, 0x10, 0x80, 0x83, 0x04].map (decodeTableWord 8) =
    [some (.rsRead 0 []), some (.rsWr1 0 0 0), some (.rsWrn 0 0 0), some (.rsExc 0 0 0 []),
      some (.rsExc 0 3 0 []), none] := by decide +kernel

/-! ### One step of each instruction, against 95_test_vectors -/

-- CRC_INIT in the middle of a computation (section 2.2)
theorem test_crcInit : (after (exec (.crcInit 0x00) { State.reset with crc := 0xF020#16 })).map State.crc =
    some 0xFFFF#16 := by decide +kernel
-- CS2, CS11
theorem test_crcByte : (after (exec (.crcByte 0x01) State.reset)).map State.crc = some 0x807E#16 ∧
    (after (exec (.crcByte 0x56) { State.reset with crc := 0x1234#16 })).map State.crc = some 0xE993#16 := by
  decide +kernel
-- EV3, EV4
theorem test_encRead :
    (after (exec (.encRead 0x00) { State.reset with slave := 0x11, addr := 0x006B, arg := 0x0003 })).map txFrame =
      some [0x11, 0x03, 0x00, 0x6B, 0x00, 0x03, 0x76, 0x87] ∧
    (after (exec (.encRead 0x00) { State.reset with slave := 0xFF, addr := 0xFFFF, arg := 0xFFFF })).map txFrame =
      some [0xFF, 0x03, 0xFF, 0xFF, 0xFF, 0xFF, 0x51, 0x80] := by decide +kernel
-- EV7, EV9
theorem test_encWr1 :
    (after (exec (.encWr1 0x00) { State.reset with slave := 0x01, addr := 0x0001, arg := 0xFF9C })).map txFrame =
      some [0x01, 0x06, 0x00, 0x01, 0xFF, 0x9C, 0x99, 0x93] ∧
    (after (exec (.encWr1 0x00) { State.reset with slave := 0xF7, addr := 0x1234, arg := 0xABCD })).map
      (fun t => (t.txlen, t.crc)) = some (8, 0x4F67#16) := by decide +kernel
-- EV11, EV10 (length and CRC)
theorem test_encWrn : (after (exec (.encWrn 0x00) writeReady)).map txFrame =
      some [0x01, 0x10, 0x00, 0x01, 0x00, 0x02, 0x04, 0x00, 0xEB, 0xFF, 0x9C, 0x03, 0xCE] ∧
    (after (exec (.encWrn 0x00) { writeReady with arg := 0x0001 })).map (fun t => (t.txlen, t.crc)) =
      some (11, 0xCEE7#16) := by
  decide +kernel
-- EV13, EV14, and no function 0x10
theorem test_encWrn_refused : refusalOf (exec (.encWrn 0x00) (wordsReady 124)) = some .wordCount ∧
    refusalOf (exec (.encWrn 0x00) State.reset) = some .wordCount ∧
    refusalOf (exec (.encWrn 0x00) bare) = some .fc10Absent := by decide +kernel
-- EV15 with a free value for WDATA[1] (log 4): all but its two bytes and the trailer is known
theorem test_encWrn_unwritten :
    (after (exec (.encWrn 0x00) { writeReady with wdata := [(0, 0x00EB)] })).map
      (fun t => (t.txlen, t.draws, (txFrame t).take 9)) =
    some (13, 2, [0x01, 0x10, 0x00, 0x01, 0x00, 0x02, 0x04, 0x00, 0xEB]) := by decide +kernel
-- 42_decode R86: the bytes stay but are no longer defined
theorem test_rxClear : (after (exec (.rxClear 0x00) (received readReply))).map
    (fun t => (t.rxlen, readReg t (.rxbuf 0), memFind t.rxbuf 0)) = some (0, none, some 0x01#8) := by decide +kernel
-- 42_decode R87, and the 257th byte
theorem test_rxByte : (after (exec (.rxByte 0x01) State.reset)).map
      (fun t => (t.rxlen, readReg t (.rxbuf 0))) = some (1, some 0x0001#16) ∧
    refusalOf (exec (.rxByte 0x01) (filled 256)) = some .rxFull := by decide +kernel
-- DV1, DV3, DV5, DV6, DV9, DV11: each outcome
theorem test_dec_outcomes :
    shown 0x03 readReply = some ⟨1, 0x00, 1, [0x00EB], 0x0BF8⟩ ∧
    shown 0x03 [0x01, 0x03, 0x40, 0x21] = some ⟨2, 0x00, 0, [], 0x1234⟩ ∧
    shown 0x03 [0x01, 0x03, 0x02, 0x00, 0xEA, 0xF8, 0x0B] = some ⟨3, 0x00, 0, [], 0xCB39⟩ ∧
    shown 0x03 excReply = some ⟨4, 0x02, 0, [], 0xF1C0⟩ ∧
    shown 0x03 writeReply = some ⟨5, 0x00, 0, [], 0x4598⟩ ∧
    shown 0x03 [0x01, 0x03, 0x02, 0x00, 0xEB, 0x00, 0x0A, 0x82] = some ⟨6, 0x00, 0, [], 0x820A⟩ := by
  decide +kernel
-- DV7, DV8, DV12, DV13, DV14, DV15, DV16, DV20, DV18
theorem test_dec_corners :
    shown 0x03 [0x01, 0x83, 0x02, 0x00, 0xF1, 0x50] = some ⟨4, 0x02, 0, [], 0x50F1⟩ ∧
    shown 0x03 [0x01, 0x86, 0x03, 0x02, 0x61] = some ⟨4, 0x03, 0, [], 0x6102⟩ ∧
    shown 0x03 [0x01, 0x03, 0x03, 0x00, 0xEB, 0x01, 0xCA, 0xBE] = some ⟨6, 0x00, 0, [], 0xBECA⟩ ∧
    shown 0x03 [0x01, 0x03, 0x00, 0x20, 0xF0] = some ⟨1, 0x00, 0, [], 0xF020⟩ ∧
    shown 0x06 writeReply = some ⟨1, 0x00, 2, [0x0001, 0x00EB], 0x4598⟩ ∧
    shown 0x06 [0x01, 0x06, 0x00, 0x01, 0x00, 0x18, 0xD8] = some ⟨6, 0x00, 0, [], 0xD818⟩ ∧
    shown 0x10 wrnReply = some ⟨1, 0x00, 2, [0x0001, 0x0002], 0x0810⟩ ∧
    shown 0x03 [0x01, 0x83, 0x02, 0x00, 0xEB, 0xF8, 0x0B] = some ⟨3, 0x00, 0, [], 0xCBD1⟩ ∧
    refusalOf (exec (.dec 0x04) (received readReply)) = some .expectedCode := by decide +kernel
-- S1, EV6, EV11
theorem test_request_rows :
    (after (exec (.rqRead 0x01 0x0000 0x0001) bare)).map txFrame =
      some [0x01, 0x03, 0x00, 0x00, 0x00, 0x01, 0x84, 0x0A] ∧
    (after (exec (.rqWr1 0x01 0x0001 0x00EB) bare)).map txFrame = some writeReply ∧
    (after (exec (.rqWrn 0x01 0x0001 [0x00EB, 0xFF9C]) State.reset)).map txFrame =
      some [0x01, 0x10, 0x00, 0x01, 0x00, 0x02, 0x04, 0x00, 0xEB, 0xFF, 0x9C, 0x03, 0xCE] := by decide +kernel
-- DV2, DV14, DV16, DV6
theorem test_response_rows :
    (after (exec (.rsRead 0x01 [0x00EB, 0xFF9C]) State.reset)).map (fun t => (t.status, payloadWords t, t.crc)) =
      some (.ok, [0x00EB, 0xFF9C], 0x9ECB) ∧
    (after (exec (.rsWr1 0x01 0x0001 0x00EB) State.reset)).map (fun t => (t.status, payloadWords t, t.crc)) =
      some (.ok, [0x0001, 0x00EB], 0x4598) ∧
    (after (exec (.rsWrn 0x01 0x0001 0x0002) State.reset)).map (fun t => (t.status, payloadWords t, t.crc)) =
      some (.ok, [0x0001, 0x0002], 0x0810) ∧
    (after (exec (.rsExc 0x01 0x03 0x02 []) State.reset)).map (fun t => (t.status, t.exc, t.crc)) =
      some (.exceptionResponse, 0x02, 0xF1C0) := by decide +kernel

/-! ### The host's side -/

-- a refused word is answered as refused; RD of STATUS after DV1; WR truncates to 8 bits
theorem test_bus :
    (after (step { State.reset with events := [commandEvent 0x0704#16] })).map State.rsp =
      some (some { data := 0, refused := true }) ∧
    (after (step { received readReply with status := .ok, events := [rdEvent 4] })).map State.rsp =
      some (some { data := 1, refused := false }) ∧
    (after (step { State.reset with events := [wrEvent 0 0x1201] })).map State.slave = some 0x01#8 := by
  decide +kernel
-- the table's words placed as the first instruction after reset
theorem test_withFetchWord :
    (after (step (State.reset.withFetchWord 16 0x0600))).map (fun t => (t.rxlen, t.events)) = some (1, []) ∧
    (after (step (State.reset.withFetchWord 8 0x83))).map (fun t => (t.status, t.rxlen)) =
      some (.exceptionResponse, 5) ∧
    (after (step (State.reset.withFetchWord 8 0x06))).map (fun t => (t.status, t.pcount)) = some (.ok, 2#8) := by
  decide +kernel

/-- A host with two registers: the temperature of S7, and a writable setpoint. -/
def twoRegisters : HostConfig where
  registers :=
    [("current_temperature",
        { address := 0x0000, width := .one, encoding := .fixedPoint 10, access := .readOnly }),
      ("setpoint", { address := 0x0001, width := .one, encoding := .signed16, access := .readWrite }),
      ("alarm_high", { address := 0x0002, width := .two, encoding := .fixedPoint 10, access := .readWrite })]
  slave := 0x01
  maxBytes := 256
  duration := 1000

/-- A link that answers one frame with another, and is silent on any other. -/
def answering (request reply : List Byte) : Transport where
  write _ := .ok ()
  readWithTimeout sent _ _ := .ok (if sent = request then reply else [])

/-- The golden request of S1. -/
def goldenRequest : List Byte := [0x01, 0x03, 0x00, 0x00, 0x00, 0x01, 0x84, 0x0A]

-- S7: get_temperature sends the golden frame, the payload is 0x00EB; a silent link is Timeout (S8)
theorem test_end_to_end :
    (transact twoRegisters (answering goldenRequest readReply) ClientOp.getTemperature.invocation State.reset).1 =
      .decoded [0x00EB] ∧
    (transact twoRegisters (answering [] readReply) ClientOp.getTemperature.invocation State.reset).1 =
      .failed .timeout := by decide +kernel
-- S4: raw 235 at scale 10 is 23.5
theorem test_fixed_point : decodeValue (.fixedPoint 10) 0x00EB#16 = 23.5 := by
  rw [decodeValue, show (0x00EB#16).toInt = 235 by decide]
  norm_num
-- R103 over two words: raw 65536 at scale 10 is 6553.6, its halves in either order of the words (N17)
theorem test_two_words : encodeValue (.fixedPoint 10) 6553.6 = some 0x00010000#32 ∧
    decodeValue (.fixedPoint 10) 0x00010000#32 = 6553.6 ∧
    splitRaw 0x0002 0x00010000#32 =
      if Config.highWordFirst 0x0002 then [0x0001#16, 0x0000#16] else [0x0000#16, 0x0001#16] := by
  refine ⟨by norm_num [encodeValue, rawOfInt?], ?_, by unfold splitRaw; split <;> rfl⟩
  rw [decodeValue, show (0x00010000#32).toInt = 65536 by decide]
  norm_num
-- U7: a third of a degree is no multiple of 1 / 10, so the two-word write of it is not issued
theorem test_no_raw_value : (transact twoRegisters (answering writeReply writeReply)
    (ClientOp.setAlarm "high" (1 / 3)).invocation State.reset).1 = .idle := by decide +kernel
-- P3: the device refuses a write of 235 to register 1; a write of a value with no raw word is not issued (U7)
theorem test_write_transaction :
    (transact twoRegisters (answering writeReply [0x01, 0x86, 0x02, 0xC3, 0xA1]) (ClientOp.setSetpoint 235).invocation
      State.reset).1 = .failed (.block (.exceptionResponse 0x02)) ∧
    (transact twoRegisters (answering writeReply writeReply) (ClientOp.setSetpoint 40000).invocation
      State.reset).1 = .idle := by decide +kernel
-- 10_state R27: WDATA[3840] is no register, and ARG stays as it was
theorem test_wdata_beyond : hostDo writeReady (wrEvent (wdataNumber 3842) 0x0001) =
    { writeReady with rsp := some { data := 0, refused := false } } := by decide +kernel

/-! ### Witnesses: for every statement with hypotheses, states and operands that meet them, clause by clause -/

/-- The premise "CRC over the body is the trailer", as the statements about DEC write it. -/
abbrev goodCrc (s : State) : Prop := rxCrc s = be (rxByteAt s (s.rxlen - 1)) (rxByteAt s (s.rxlen - 2))

theorem witness_CrcInitSetsRegister : ∃ t, exec (.crcInit 0xFF) State.reset = .next t := ⟨_, rfl⟩
theorem witness_CrcByteStepsRegister :
    State.reset.crc = 0xFFFF#16 ∧ ∃ t, exec (.crcByte 0x01) State.reset = .next t := ⟨rfl, _, rfl⟩
theorem witness_StreamedBytesGiveCrc16 : State.reset.crc = 0xFFFF#16 := rfl
theorem witness_TrailerMatchesIffResidueZero :
    2 ≤ readReply.length ∧ crcMatches readReply = true ∧ 2 ≤ [0xFF#8, 0xFF#8].length := by decide +kernel
-- n = 1 and n = WMAX; then each refusal at its edge
theorem witness_EncWrnBuildsRequestOrRefuses_accepts :
    (writeReady.params.hasFc10 = true ∧ 1 ≤ (1#16).toNat ∧ (1#16).toNat ≤ writeReady.params.wmax ∧
      ∀ i < [0x00EB#16].length, memFind writeReady.wdata i = [0x00EB#16][i]?) ∧
    ((wordsReady 123).params.hasFc10 = true ∧ (wordsReady 123).arg.toNat = (wordsReady 123).params.wmax ∧
      ((wordsReady 123).wdata.map Prod.snd).length = (wordsReady 123).arg.toNat ∧
      ∀ i < 123, memFind (wordsReady 123).wdata i = ((wordsReady 123).wdata.map Prod.snd)[i]?) := by
  decide +kernel
theorem witness_EncWrnBuildsRequestOrRefuses_refuses : bare.params.hasFc10 = false ∧
    (State.reset.params.hasFc10 = true ∧ State.reset.arg.toNat = 0) ∧
    ((wordsReady 124).params.hasFc10 = true ∧ (wordsReady 124).params.wmax < (wordsReady 124).arg.toNat) ∧
    (1 ≤ writeReady.arg.toNat ∧ writeReady.arg.toNat ≤ writeReady.params.wmax ∧
      memFind { writeReady with wdata := [(0, 0x00EB)] }.wdata 1 = none) := by decide +kernel
theorem witness_EncoderFunctionCodeIsFixed : (∃ t, exec (.encRead 0x06) writeReady = .next t) ∧
    (∃ t, exec (.encWr1 0x03) writeReady = .next t) ∧
    (∃ t, exec (.encWrn 0x03) writeReady = .next t ∧ t.txlen = 13) :=
  ⟨⟨_, rfl⟩, ⟨_, rfl⟩, next_with (by decide +kernel)⟩
theorem witness_EncodersWriteTheEncodedRow : (∃ t, exec (.encRead 0x00) writeReady = .next t) ∧
    (∃ t, exec (.encWr1 0x00) writeReady = .next t) ∧
    (∃ t, exec (.encWrn 0x00) (wordsReady 123) = .next t ∧ t.txlen = 255) :=
  ⟨⟨_, rfl⟩, ⟨_, rfl⟩, next_with (by decide +kernel)⟩
theorem witness_RequestRowsBuildTheirFrame :
    (State.reset.params.hasFc10 = true ∧ 1 ≤ [0x0000#16].length ∧
      (List.replicate 123 0x0000#16).length = State.reset.params.wmax) ∧ bare.params.hasFc10 = false ∧
    ([] : List Word).length = 0 ∧ State.reset.params.wmax < (List.replicate 124 0x0000#16).length := by
  decide +kernel
theorem witness_RxClearEmptiesBuffer : ∃ t, exec (.rxClear 0x00) (received readReply) = .next t := ⟨_, rfl⟩
theorem witness_RxByteAppends : (filled 256).rxlen = (filled 256).params.frameMax ∧
    (filled 255).rxlen < (filled 255).params.frameMax ∧ (filled 255).rxlen + 1 = (filled 255).params.frameMax ∧
    State.reset.rxlen < State.reset.params.frameMax := by decide +kernel
theorem witness_DecAdmitsThreeCodes : admitted bare.params 0x03 ∧ admitted bare.params 0x06 ∧
    admitted State.reset.params 0x10 ∧ ¬ admitted bare.params 0x10 ∧ ¬ admitted State.reset.params 0x04 := by
  decide +kernel
theorem witness_DecFollowsTheFiveSteps : admitted State.reset.params 0x10 := by decide +kernel
theorem witness_DecShortRead : admitted (filled 4).params 0x06 ∧ (filled 4).rxlen < 5 := by decide +kernel
theorem witness_DecCrcMismatch : admitted (filled 5).params 0x03 ∧ 5 ≤ (filled 5).rxlen ∧ ¬ goodCrc (filled 5) := by
  decide +kernel
theorem witness_DecExceptionResponse : admitted (received excReply).params 0x06 ∧ 5 = (received excReply).rxlen ∧
    goodCrc (received excReply) ∧ (rxByteAt (received excReply) 1).getLsbD 7 = true := by decide +kernel
theorem witness_DecUnexpectedFunctionCode : admitted (received readReply).params 0x06 ∧
    5 ≤ (received readReply).rxlen ∧ goodCrc (received readReply) ∧
    (rxByteAt (received readReply) 1).getLsbD 7 = false ∧ rxByteAt (received readReply) 1 ≠ 0x06 := by
  decide +kernel

/-- The premises of the payload statements: a long enough frame, a good CRC, the expected code. -/
abbrev passesFourChecks (e : Byte) (s : State) : Prop := 5 ≤ s.rxlen ∧ goodCrc s ∧ rxByteAt s 1 = e

-- DV11, DV12 (malformed by length, by parity), DV13 (no word), DV1 (one word)
theorem witness_DecReadPayload :
    (passesFourChecks 0x03 (received [0x01, 0x03, 0x02, 0x00, 0xEB, 0x00, 0x0A, 0x82]) ∧ (0x02#8).toNat ≠ 8 - 5) ∧
    (passesFourChecks 0x03 (received [0x01, 0x03, 0x03, 0x00, 0xEB, 0x01, 0xCA, 0xBE]) ∧
      (0x03#8).getLsbD 0 = true) ∧
    (passesFourChecks 0x03 (received [0x01, 0x03, 0x00, 0x20, 0xF0]) ∧ (0x00#8).toNat = 5 - 5) ∧
    (passesFourChecks 0x03 (received readReply) ∧ (rxByteAt (received readReply) 2).toNat = 7 - 5 ∧
      (rxByteAt (received readReply) 2).getLsbD 0 = false) := by decide +kernel
theorem witness_DecReadPayload_bound :
    (filled 256).rxlen ≤ 256 ∧ ∃ t, exec (.dec 0x03) (filled 4) = .next t ∧ t.pcount.toNat = 0 :=
  ⟨by decide +kernel, next_with (by decide +kernel)⟩
-- DV15 (7 bytes), DV26 (9 bytes), DV14 and DV16 (8 bytes)
theorem witness_DecWritePayload :
    passesFourChecks 0x06 (received [0x01, 0x06, 0x00, 0x01, 0x00, 0x18, 0xD8]) ∧
    passesFourChecks 0x10 (received [0x01, 0x10, 0x00, 0x01, 0x00, 0x02, 0x04, 0x08, 0x0F]) ∧
    (passesFourChecks 0x06 (received writeReply) ∧ (received writeReply).rxlen = 8) ∧
    (passesFourChecks 0x10 (received wrnReply) ∧ (received wrnReply).rxlen = 8 ∧
      admitted (received wrnReply).params 0x10) := by decide +kernel
theorem witness_ErrorRecordsExactly :
    (∃ t, exec (.dec 0x03) (filled 4) = .next t ∧ t.status = .shortRead) ∧
    (∃ t, exec (.dec 0x03) (filled 5) = .next t ∧ t.status = .crcMismatch) ∧
    (∃ t, exec (.dec 0x03) (received excReply) = .next t ∧ t.status = .exceptionResponse) ∧
    (∃ t, exec (.dec 0x03) (received writeReply) = .next t ∧ t.status = .unexpectedFunctionCode) ∧
    (∃ t, exec (.dec 0x03) (received [0x01, 0x03, 0x03, 0x00, 0xEB, 0x01, 0xCA, 0xBE]) = .next t ∧
      t.status = .malformedFrame) :=
  by refine ⟨?_, ?_, ?_, ?_, ?_⟩ <;> exact next_with (by decide +kernel)
theorem witness_DecIsTotalAndRepeatable : admitted (received readReply).params 0x03 := by decide +kernel
theorem witness_DecChangesResultsOnly : ∃ t, exec (.dec 0x03) (received readReply) = .next t ∧ t.pcount.toNat ≤ 1 :=
  next_with (by decide +kernel)
theorem witness_DecDependsOnReceivedBytesOnly :
    sameReceived (received readReply) { received readReply with slave := 0x11, crc := 0x0000, pcount := 3 } ∧
    ∃ t, exec (.dec 0x03) (received readReply) = .next t ∧ 0 < t.pcount.toNat :=
  ⟨by decide +kernel, next_with (by decide +kernel)⟩
theorem witness_FunctionCodeDispatch :
    (5 ≤ (received excReply).rxlen ∧ goodCrc (received excReply) ∧
      5 ≤ (received readReply).rxlen ∧ goodCrc (received readReply)) ∧
    (∃ t, exec (.dec 0x03) (received excReply) = .next t ∧ t.status = .exceptionResponse) ∧
    (∃ t, exec (.dec 0x06) (received readReply) = .next t ∧ t.status = .unexpectedFunctionCode) ∧
    (∃ t, exec (.dec 0x03) (received readReply) = .next t ∧ t.status = .ok) :=
  ⟨by decide +kernel, by refine ⟨?_, ?_, ?_⟩ <;> exact next_with (by decide +kernel)⟩
theorem witness_ResponseRowsHaveTheirEffect :
    (List.replicate 125 0x0000#16).length ≤ State.reset.params.pmax ∧ State.reset.params.hasFc10 = true ∧
    5 + (List.replicate 251 0x00#8).length ≤ State.reset.params.frameMax ∧
    State.reset.params.pmax < (List.replicate 126 0x0000#16).length ∧ bare.params.hasFc10 = false ∧
    State.reset.params.frameMax < 5 + (List.replicate 252 0x00#8).length := by decide +kernel
theorem witness_DecRunsTheFrameItFinds :
    (responseUnder 0x03 (.read 0x01 [0x00EB]) ∧ responseFits State.reset.params (.read 0x01 [0x00EB]) ∧
      rxFrame (received readReply) = withTrailer (Response.body (.read 0x01 [0x00EB]))) ∧
    (responseUnder 0x06 (.wr1 0x01 0x0001 0x00EB) ∧ responseFits State.reset.params (.wr1 0x01 0x0001 0x00EB) ∧
      rxFrame (received writeReply) = withTrailer (Response.body (.wr1 0x01 0x0001 0x00EB))) ∧
    (responseUnder 0x10 (.wrn 0x01 0x0001 0x0002) ∧ responseFits State.reset.params (.wrn 0x01 0x0001 0x0002) ∧
      rxFrame (received wrnReply) = withTrailer (Response.body (.wrn 0x01 0x0001 0x0002))) ∧
    (responseUnder 0x06 (.exc 0x01 0x03 0x02 []) ∧ responseFits State.reset.params (.exc 0x01 0x03 0x02 []) ∧
      rxFrame (received excReply) = withTrailer (Response.body (.exc 0x01 0x03 0x02 []))) ∧
    admitted State.reset.params 0x03 ∧ admitted State.reset.params 0x06 ∧ admitted State.reset.params 0x10 := by
  refine ⟨⟨rfl, ?_, ?_⟩, ⟨rfl, trivial, ?_⟩, ⟨rfl, rfl, ?_⟩, ⟨trivial, ?_, ?_⟩, ?_⟩
  · show (1 : Nat) ≤ State.reset.params.pmax; decide +kernel
  · decide +kernel
  · decide +kernel
  · decide +kernel
  · show 5 + 0 ≤ State.reset.params.frameMax; decide +kernel
  · decide +kernel
  · decide +kernel
-- DV20: byte 1 corrupted; the last byte of DV6 corrupted
theorem witness_SingleByteCorruptionIsDetected :
    (admitted State.reset.params 0x03 ∧ 5 ≤ readReply.length ∧ crcMatches readReply = true ∧ 1 < readReply.length ∧
      readReply[1]? ≠ some 0x83 ∧
      rxFrame (received [0x01, 0x83, 0x02, 0x00, 0xEB, 0xF8, 0x0B]) = readReply.set 1 0x83) ∧
    (5 ≤ excReply.length ∧ crcMatches excReply = true ∧ 4 < excReply.length ∧ excReply[4]? ≠ some 0xF0 ∧
      rxFrame (received [0x01, 0x83, 0x02, 0xC0, 0xF0]) = excReply.set 4 0xF0) := by decide +kernel
-- DV21
theorem witness_StaleFrameIsDetected : admitted State.reset.params 0x03 ∧ 5 ≤ readReply.length ∧
    5 ≤ excReply.length ∧ crcMatches readReply = true ∧ crcMatches excReply = true ∧
    rxFrame (received (readReply ++ excReply)) = readReply ++ excReply := by decide +kernel
theorem witness_CommandsImplementDecodeResponse : admitted State.reset.params 0x03 ∧
    ([] : List Byte).length ≤ State.reset.params.frameMax ∧
    (List.replicate 256 0x00#8).length ≤ State.reset.params.frameMax := by decide +kernel
theorem witness_OperandRegistersWrittenByNoCommand : ∃ t, exec (.encRead 0x00) writeReady = .next t := ⟨_, rfl⟩
theorem witness_OnlyDecodingWritesResults :
    decodes (.rxByte 0x01) = false ∧ ∃ t, exec (.rxByte 0x01) State.reset = .next t ∧ t.rxlen = 1 :=
  ⟨rfl, next_with (by decide +kernel)⟩
theorem witness_BuffersHaveOneWriter : encodes (.crcInit 0x00) = false ∧ receives (.encWr1 0x00) = false ∧
    (∃ t, exec (.crcInit 0x00) State.reset = .next t) ∧ ∃ t, exec (.encWr1 0x00) State.reset = .next t :=
  ⟨rfl, rfl, ⟨_, rfl⟩, _, rfl⟩
theorem witness_SharedCrcEngine : receives (.rxClear 0x00) = true ∧ encodes (.encRead 0x00) = true ∧
    (∃ t, exec (.rxClear 0x00) State.reset = .next t) ∧ (∃ t, exec (.encRead 0x00) State.reset = .next t) ∧
    ∃ t, exec (.dec 0x03) (filled 4) = .next t ∧ t.status = .shortRead :=
  ⟨rfl, rfl, ⟨_, rfl⟩, ⟨_, rfl⟩, next_with (by decide +kernel)⟩
-- accepted, refused (the buffer is full)
theorem witness_StepRunsTheDecodedInstruction :
    (decodeCommand 0x0600#16 = .ok (.rxByte 0x00) ∧ decodeCommand 0x0400#16 = .ok (.encWrn 0x00)) ∧
    (∃ t, exec (.rxByte 0x00) State.reset = .next t ∧ t.rxlen = 1) ∧
    refusalOf (exec (.rxByte 0x00) (filled 256)) = some .rxFull :=
  ⟨⟨rfl, rfl⟩, next_with (by decide +kernel), by decide +kernel⟩
theorem witness_ReservedRequestsAreRefused :
    (0x0800#16).extractLsb' 11 5 ≠ 0#5 ∧ (0xF800#16).extractLsb' 11 5 ≠ 0#5 := by decide +kernel
-- the first and the last WDATA register, and a read-only one
theorem witness_HostWriteChangesOneOperand : (0x100#12).toNat = 0x100 + 0 ∧ (0x17A#12).toNat = 0x100 + 122 ∧
    122 < State.reset.params.wmax ∧ (0x000#12).toNat = 0x000 ∧ (0x003#12).toNat ≠ 0x002 := by decide +kernel
-- CRC has a value, an unwritten WDATA element and an unassigned number have none
theorem witness_HostReadHasNoSideEffect :
    (regOf State.reset.params 0x003 = some .crc ∧ readReg State.reset .crc = some 0xFFFF) ∧
    (regOf State.reset.params 0x100).bind (readReg State.reset) = none ∧
    (regOf State.reset.params 0x009).bind (readReg State.reset) = none := by decide +kernel
theorem witness_UndefinedElementsHaveNoValue : memFind State.reset.wdata 0 = none ∧
    State.reset.pcount.toNat ≤ 0 ∧ State.reset.txlen ≤ 0 ∧ (received readReply).rxlen ≤ 7 := by decide +kernel
theorem witness_RegisterNumbersAreTheTable : ({ frameMax := 11 } : Params).wf ∧ ({ frameMax := 512 } : Params).wf ∧
    (0x009 ≤ 0x0FF ∧ 0x0FF < 0x100) ∧ 126 < ({ frameMax := 512 } : Params).wmax ∧
    126 < ({ frameMax := 512 } : Params).pmax ∧ 511 < ({ frameMax := 512 } : Params).frameMax ∧
    (({} : Params).wmax ≤ 123 ∧ ({} : Params).pmax ≤ 125 ∧ ({} : Params).frameMax ≤ 256) ∧
    ({ hasFc10 := false } : Params).hasFc10 = false := by decide +kernel
theorem witness_ResetInputGivesResetState :
    { received readReply with events := [.reset, rdEvent 3] }.events = .reset :: [rdEvent 3] := rfl

/-- A state of a run: DV1 in RXBUF, its DEC the next event. -/
def midRun : State := { received readReply with events := [commandEvent 0x0703] }

theorem witness_StepKeepsInvariant : midRun.Inv ∧ ∃ t, step midRun = .next t ∧ t.status = .ok :=
  ⟨by constructor <;> decide +kernel, next_with (by decide +kernel)⟩
theorem witness_LengthsFitTheirRegisters : midRun.Inv := witness_StepKeepsInvariant.1
theorem witness_DecodeOfEncode : (Instr.crcInit 0xFF).wellFormed = true ∧
    (Instr.rqWrn 0x01 0x0001 (List.replicate 127 0x0000)).wellFormed = true ∧
    (Instr.rsRead 0x01 (List.replicate 127 0x0000)).wellFormed = true ∧ (Instr.rsRead 0x01 []).wellFormed = true ∧
    (Instr.rsExc 0x01 0x03 0x02 []).wellFormed = true := by decide +kernel
theorem witness_CommandWordsHaveOneMeaning :
    (0x07FF#16).extractLsb' 11 5 = 0#5 ∧ (0x0800#16).extractLsb' 11 5 ≠ 0#5 := by decide +kernel
-- a scale, a one-word and a two-word register with a value each at the edge of its range, and 1/3 at scale 10
theorem witness_FixedPointRoundTrip : ValueEncoding.fixedPoint (-1 / 2) ≠ .fixedPoint 0 ∧
    encodeValue (.fixedPoint 10) (-32768 / 10) = some 0x8000#16 ∧
    encodeValue (.fixedPoint 10) (2147483647 / 10) = some 0x7FFFFFFF#32 ∧ ((1 / 3 : ℚ) * 10).den ≠ 1 := by
  decide +kernel
theorem witness_AccessErrorsTouchNothing :
    (∃ d, resolve twoRegisters.registers "current_temperature" = .ok d ∧ d.access = .readOnly) ∧
    List.lookup "humidity" twoRegisters.registers = none := ⟨⟨_, rfl, rfl⟩, rfl⟩

/-- A link that fails to write, and one that fails to read. -/
def broken (onWrite : Bool) : Transport where
  write _ := if onWrite then .error "unplugged" else .ok ()
  readWithTimeout _ _ _ := .error "unplugged"

-- the frame is S1's; each way the link can end
theorem witness_ReadTransactionIsDecodeResponse :
    (∃ d, resolve twoRegisters.registers "current_temperature" = .ok d ∧
      goldenRequest = withTrailer [twoRegisters.slave, 0x03#8, hi d.address, lo d.address, hi d.width.words,
        lo d.width.words]) ∧
    (broken true).write goldenRequest = .error "unplugged" ∧
    ((broken false).write goldenRequest = .ok () ∧
      (broken false).readWithTimeout goldenRequest (min twoRegisters.maxBytes State.reset.params.frameMax)
        twoRegisters.duration = .error "unplugged") ∧
    ((answering goldenRequest readReply).write goldenRequest = .ok () ∧
      (answering goldenRequest readReply).readWithTimeout goldenRequest
        (min twoRegisters.maxBytes State.reset.params.frameMax) twoRegisters.duration = .ok readReply) :=
  ⟨⟨_, rfl, by decide +kernel⟩, rfl, ⟨rfl, rfl⟩, rfl, congrArg Except.ok (if_pos rfl)⟩
-- EV6's frame for the one-word setpoint; a two-word register on a block with function 0x10
theorem witness_WriteTransactionSendsItsFrame :
    (∃ d, resolve twoRegisters.registers "setpoint" = .ok d ∧ d.access = .readWrite ∧ d.width = .one ∧
      encodeValue d.encoding 235 = some 0x00EB#16 ∧
      writeReply = withTrailer [twoRegisters.slave, 0x06#8, hi d.address, lo d.address, hi 0x00EB, lo 0x00EB]) ∧
    (∃ d w0 w1, resolve twoRegisters.registers "alarm_high" = .ok d ∧ d.access = .readWrite ∧ d.width = .two ∧
      encodeValue d.encoding 235 = some 0x0000092E#32 ∧ splitRaw d.address 0x0000092E#32 = [w0, w1]) ∧
    State.reset.params.hasFc10 = true ∧ 2 ≤ State.reset.params.wmax ∧
    (broken true).write writeReply = .error "unplugged" ∧
    ((answering writeReply writeReply).write writeReply = .ok () ∧
      (answering writeReply writeReply).readWithTimeout writeReply
        (min twoRegisters.maxBytes State.reset.params.frameMax) twoRegisters.duration = .ok writeReply) := by
  refine ⟨⟨_, rfl, rfl, rfl, by decide +kernel, by decide +kernel⟩, ?_, rfl, by decide +kernel, rfl, rfl,
    congrArg Except.ok (if_pos rfl)⟩
  refine ⟨_, (splitRaw 0x0002 0x0000092E#32)[0]!, (splitRaw 0x0002 0x0000092E#32)[1]!, rfl, rfl, rfl,
    by decide +kernel, ?_⟩
  show splitRaw 0x0002 0x0000092E#32 = _
  unfold splitRaw
  split <;> rfl
-- one past the range of one word; a third at scale 10 in two words
theorem witness_ValueWithNoRawValueIsNotIssued :
    (∃ d, resolve twoRegisters.registers "setpoint" = .ok d ∧ d.access = .readWrite ∧ d.width = .one ∧
      (encodeValue d.encoding 32768 : Option Word) = none) ∧
    (∃ d, resolve twoRegisters.registers "alarm_high" = .ok d ∧ d.access = .readWrite ∧ d.width = .two ∧
      (encodeValue d.encoding (1 / 3) : Option (BitVec 32)) = none) :=
  ⟨⟨_, rfl, rfl, rfl, by decide +kernel⟩, _, rfl, rfl, rfl, by decide +kernel⟩
theorem witness_WdataWritesReachWdataOnly : State.reset.params.hasFc10 = true ∧ 122 < State.reset.params.wmax ∧
    122 < (List.replicate 5000 0x0000#16).length := by decide +kernel

end Sys2Proof.Tests
end

section
/-! SUPPORT. CRC_INIT as the host sees it (spec 40_crc section 2): its equation, what a RD of CRC answers, and
the obligation made of the two. -/

namespace Sys2Proof.Machine

/-- CRC_INIT is accepted in every state and writes the seed to CRC, nothing else (40_crc R68). -/
theorem exec_crcInit (imm : Byte) (s : State) : exec (.crcInit imm) s = .next { s with crc := 0xFFFF#16 } := rfl

/-- A read of number 0x003 answers with CRC and draws no free value (10_state R27, R29). -/
theorem serveRead_crc (s : State) : serveRead 0x003 s = respond s.crc false s := rfl

/-- Settles O1: the effect is CRC_INIT's equation, the word is the one of opcode 0 and immediate 0, and the read
answers with the CRC the command left. -/
theorem crcInitSetsRegister : Obligations.CrcInitSetsRegister := by
  unfold Obligations.CrcInitSetsRegister
  refine ⟨exec_crcInit, decodeCommand_commandWord 0#3 0x00#8, fun imm s t h => ?_⟩
  rw [exec_crcInit] at h
  have hcrc : t.crc = 0xFFFF#16 := congrArg State.crc (Host.Outcome.next.inj h).symm
  rw [serveRead_crc, respond_rsp, hcrc]

end Sys2Proof.Machine
end

section
/-! SUPPORT. The encoders' frames (spec 41_encode section 2): the equations of ENC_READ and ENC_WR1, the function
code of a frame built, and the obligations made of them. -/

namespace Sys2Proof.Machine

/-- ENC_READ is accepted in every state and builds RQ_READ's body from SLAVE, ADDR and ARG (41_encode R76). -/
theorem exec_encRead (imm : Byte) (s : State) :
    exec (.encRead imm) s = .next (buildFrame (bodyRqRead s.slave s.addr s.arg) s) := rfl

/-- ENC_WR1 is accepted in every state and builds RQ_WR1's body from SLAVE, ADDR and ARG (41_encode R78). -/
theorem exec_encWr1 (imm : Byte) (s : State) :
    exec (.encWr1 imm) s = .next (buildFrame (bodyRqWr1 s.slave s.addr s.arg) s) := rfl

/-- Offset 1 of TXBUF holds the second byte of the body built, whatever TXBUF held before (41_encode R75). -/
theorem buildFrame_offset_one (a f : Byte) (rest : List Byte) (s : State) :
    memFind (buildFrame (a :: f :: rest) s).txbuf 1 = some f := by
  obtain ⟨hbytes, -⟩ := buildFrame_builds (a :: f :: rest) s
  rw [hbytes 1, if_pos (by simp)]
  rfl

/-- Settles O10: ENC_READ builds a six-byte body, so building a frame leaves the bytes, the length and the CRC the
rule names and keeps the rest; the word is the one of opcode 2 and immediate 0. -/
theorem encReadBuildsRequest : Obligations.EncReadBuildsRequest := by
  unfold Obligations.EncReadBuildsRequest
  exact ⟨fun imm s => ⟨_, exec_encRead imm s, withTrailer_length _, buildFrame_builds _ s⟩,
    decodeCommand_commandWord 2#3 0x00#8, by decide +kernel⟩

/-- Settles O11: as for ENC_READ, with RQ_WR1's body and opcode 3. -/
theorem encWr1BuildsRequest : Obligations.EncWr1BuildsRequest := by
  unfold Obligations.EncWr1BuildsRequest
  exact ⟨fun imm s => ⟨_, exec_encWr1 imm s, withTrailer_length _, buildFrame_builds _ s⟩,
    decodeCommand_commandWord 3#3 0x00#8, by decide +kernel⟩

/-- Settles O13: each encoder that completes has built a body whose second byte is its own constant; ENC_WRN
completes only on the path where it is not refused. -/
theorem encoderFunctionCodeIsFixed : Obligations.EncoderFunctionCodeIsFixed := by
  unfold Obligations.EncoderFunctionCodeIsFixed
  refine fun imm s t => ⟨fun h => ?read, fun h => ?wr1, fun h => ?wrn⟩
  case read =>
    obtain rfl := Host.Outcome.next.inj ((exec_encRead imm s).symm.trans h)
    exact buildFrame_offset_one _ fcRead _ s
  case wr1 =>
    obtain rfl := Host.Outcome.next.inj ((exec_encWr1 imm s).symm.trans h)
    exact buildFrame_offset_one _ fcWr1 _ s
  case wrn =>
    obtain ⟨r, hrefused⟩ | ⟨-, -, -, hbuilt⟩ := execEncWrn_cases imm s
    · rw [hrefused] at h
      cases h
    · obtain rfl := Host.Outcome.next.inj (hbuilt.symm.trans h)
      exact buildFrame_offset_one _ fcWrn _ _

end Sys2Proof.Machine
end

section
/-! SUPPORT. A command word as a sum, and what the host sees of a command that is refused. -/

namespace Sys2Proof.Machine

/-- The immediate is added to the opcode's word: the two do not overlap (30_encoding R55, R60). -/
theorem commandWord_eq_add (op : BitVec 3) (imm : Byte) :
    commandWord op imm = commandWord op 0#8 + imm.setWidth 16 := by
  have hdisjoint : commandWord op 0#8 &&& imm.setWidth 16 = 0#16 := by
    apply BitVec.eq_of_getLsbD_eq
    intro i hi
    rw [BitVec.getLsbD_and, commandWord_getLsbD, BitVec.getLsbD_setWidth]
    by_cases h8 : i < 8
    · simp [h8]
    · simp [BitVec.getLsbD_of_ge imm i (by omega)]
  rw [BitVec.add_eq_or_of_and_eq_zero _ _ hdisjoint]
  apply BitVec.eq_of_getLsbD_eq
  intro i hi
  rw [BitVec.getLsbD_or, commandWord_getLsbD, commandWord_getLsbD, BitVec.getLsbD_setWidth]
  by_cases h8 : i < 8
  · simp [h8, hi]
  · simp [h8, BitVec.getLsbD_of_ge imm i (by omega)]

/-- A command that exec refuses is turned away: the host is told and the block stays as it was (10_state R27). -/
theorem serveCommand_refused {op : BitVec 3} {imm : Byte} {s : State} {r : Refusal}
    (h : exec (decodeOp op imm) s = .refused r) :
    serveCommand (commandWord op imm) s = .next { s with rsp := some { data := 0x0000#16, refused := true } } := by
  rw [serveCommand, decodeCommand_commandWord]
  simp only [h, finishCommand]
  rfl

end Sys2Proof.Machine
end

section
/-! SUPPORT. The commands that fill RXBUF (spec 42_decode R86, R87): the equations of RX_CLEAR and RX_BYTE, and
the obligations made of them. -/

namespace Sys2Proof.Machine

/-- RX_CLEAR is accepted in every state and writes RXLEN, nothing else (42_decode R86). -/
theorem exec_rxClear (imm : Byte) (s : State) : exec (.rxClear imm) s = .next { s with rxlen := 0 } := rfl

/-- RX_BYTE on a full buffer is refused (42_decode R87). -/
theorem exec_rxByte_full (b : Byte) (s : State) (h : s.params.frameMax ≤ s.rxlen) :
    exec (.rxByte b) s = .refused .rxFull := if_pos h

/-- RX_BYTE on a buffer with room puts its byte at offset RXLEN (42_decode R87). -/
theorem exec_rxByte_room (b : Byte) (s : State) (h : s.rxlen < s.params.frameMax) :
    exec (.rxByte b) s = .next { s with rxbuf := memWrite s.rxbuf s.rxlen b, rxlen := s.rxlen + 1 } :=
  if_neg (Nat.not_le.mpr h)

/-- At or beyond RXLEN no byte of RXBUF has a defined value (10_state R24). -/
theorem readReg_rxbuf_beyond (s : State) (i : Nat) (h : s.rxlen ≤ i) : readReg s (.rxbuf i) = none :=
  if_neg (Nat.not_lt.mpr h)

/-- Settles O16: the effect is RX_CLEAR's equation, and every offset is at or beyond the RXLEN it leaves. -/
theorem rxClearEmptiesBuffer : Obligations.RxClearEmptiesBuffer := by
  unfold Obligations.RxClearEmptiesBuffer
  refine ⟨exec_rxClear, fun imm s t h i => ?_, decodeCommand_commandWord 5#3 0x00#8⟩
  obtain rfl := Host.Outcome.next.inj ((exec_rxClear imm s).symm.trans h)
  exact readReg_rxbuf_beyond _ i (Nat.zero_le i)

/-- Settles O17: the write of one byte at offset RXLEN, the refusal on a full buffer and what the bus makes of
it, and the word as the opcode's plus the byte. -/
theorem rxByteAppends : Obligations.RxByteAppends := by
  unfold Obligations.RxByteAppends
  refine ⟨fun b s h => exec_rxByte_full b s h.ge, fun b s h => ?room, fun b s h => ?full, fun b => ?word⟩
  case room => exact ⟨_, exec_rxByte_room b s h, rfl, fun j => memFind_memWrite _ _ j b, rfl⟩
  case full => exact ⟨_, serveCommand_refused (op := 6#3) (exec_rxByte_full b s h.ge)⟩
  case word =>
    have hword : 0x0600#16 + b.setWidth 16 = commandWord 6#3 b := (commandWord_eq_add 6#3 b).symm
    rw [hword, decodeCommand_commandWord]
    rfl

end Sys2Proof.Machine
end

section
/-! SUPPORT. The expected codes DEC admits (spec 42_decode R89). -/

namespace Sys2Proof.Machine

/-- DEC under a code that is not admitted is refused: it is no fault, and a next state needs an admitted code. -/
theorem execDec_refused (e : Byte) (s : State) (h : ¬ admitted s.params e) :
    ∃ r, exec (.dec e) s = .refused r := by
  cases hx : exec (.dec e) s with
  | next t => exact absurd (execDec_next e s t hx).1 h
  | fault f => cases f
  | refused r => exact ⟨r, rfl⟩

/-- Settles O18: an admitted code completes, another is refused, and the bus turns a refused command away. -/
theorem decAdmitsThreeCodes : Obligations.DecAdmitsThreeCodes := by
  unfold Obligations.DecAdmitsThreeCodes
  refine ⟨fun e s h => ⟨_, execDec_admitted e s h⟩, execDec_refused, fun e s h => ?_⟩
  obtain ⟨r, hr⟩ := execDec_refused e s h
  exact ⟨_, serveCommand_refused (op := 7#3) hr⟩

end Sys2Proof.Machine
end
section
/-! SUPPORT. DEC on the offsets of RXBUF (spec 42_decode R90 to R94): its meaning takes a list of bytes apart;
here that is shown, check by check, to be what the rule's steps on offsets do (`decSpec`). -/

namespace Sys2Proof.Machine

/-- The words of an even run of bytes are the pairs at its offsets, each high byte first (20_memory R31). -/
theorem wordsOfBytes_map_range' (f : Nat → Byte) (n : Nat) : ∀ first : Nat,
    wordsOfBytes ((List.range' first (2 * n)).map f) =
      (List.range n).map fun i => be (f (first + 2 * i)) (f (first + 2 * i + 1)) := by
  induction n with
  | zero => exact fun _ => rfl
  | succ n ih =>
    intro first
    rw [show 2 * (n + 1) = 2 * n + 1 + 1 by omega, List.range'_succ, List.range'_succ, List.map_cons,
      List.map_cons, wordsOfBytes, ih, List.range_succ_eq_map, List.map_cons, List.map_map]
    refine congrArg (List.cons _) (List.map_congr_left fun i _ => ?_)
    simp only [Function.comp_apply, show first + 2 * i.succ = first + 1 + 1 + 2 * i by omega]

/-- The body of a received frame of 5 bytes or more: SLAVE, function code, a third byte and the rest of the data
region, offsets 3 to RXLEN - 3. -/
theorem frameBody_rxFrame_of_le (s : State) (h5 : 5 ≤ s.rxlen) :
    frameBody (rxFrame s) = rxByteAt s 0 :: rxByteAt s 1 :: rxByteAt s 2 ::
      (List.range' 3 (s.rxlen - 5)).map (rxByteAt s) := by
  rw [frameBody_rxFrame, List.range_eq_range', show s.rxlen - 2 = s.rxlen - 5 + 1 + 1 + 1 by omega]
  simp only [List.range'_succ, List.map_cons]

/-- Two echoed fields take four bytes, so a data region of another length is malformed (42_decode R94). -/
theorem extractEcho_of_length_ne {d : List Byte} (h : d.length ≠ 4) : extractEcho d = .error .malformedFrame := by
  unfold extractEcho
  split
  · exact absurd rfl h
  · rfl

/-- What DEC reads at an offset does not depend on CRC. -/
@[simp] theorem rxByteAt_setCrc (c : Word) (s : State) (i : Nat) : rxByteAt (setCrc c s) i = rxByteAt s i := rfl

/-- What DEC does with the outcome of taking the frame apart (42_decode R90): an error is raised, a response has
its effect. -/
def conclude (outcome : Except ModbusError Response) (s : State) : State :=
  match outcome with
  | .error err => raiseError err s
  | .ok r => applyResponse r s

@[simp] theorem conclude_error (err : ModbusError) (s : State) : conclude (.error err) s = raiseError err s := rfl
@[simp] theorem conclude_ok (r : Response) (s : State) : conclude (.ok r) s = applyResponse r s := rfl

/-- DEC takes the received frame apart and concludes, on CRC as step 2 left it. -/
theorem decFrame_eq_conclude (e : Byte) (s : State) :
    decFrame e s = conclude (decodeResponse e (rxFrame s)) (decCrc s) := by
  obtain ⟨err, hd, hf⟩ | ⟨r, hd, hf⟩ := decFrame_cases e s
  · rw [hf, hd, conclude_error]
  · rw [hf, hd, conclude_ok]

/-- Step 5 of a read response, from byte 2 on, is `extract_read` of the rule (42_decode R93). -/
theorem conclude_extractRead (a : Byte) (s : State) :
    conclude (extractRead a (rxByteAt s 2 :: (List.range' 3 (s.rxlen - 5)).map (rxByteAt s))) s = readSpec s := by
  rw [extractRead, readSpec, List.length_map, List.length_range']
  split_ifs with hlen hodd
  · rfl
  · rfl
  · have heven : s.rxlen - 5 = 2 * ((rxByteAt s 2).toNat / 2) := by
      simp only [BitVec.getLsbD, Nat.testBit_zero, decide_eq_true_eq] at hodd
      omega
    rw [heven, wordsOfBytes_map_range', conclude_ok]
    simp [applyResponse, deliver, succeeded]

/-- Step 5 of a write response, from byte 2 on, is `extract_write` of the rule: both write codes return the two
echoed fields (42_decode R94). -/
theorem conclude_extractWrite (e a : Byte) (s : State) (h5 : 5 ≤ s.rxlen) :
    conclude (extractWrite e a (rxByteAt s 2 :: (List.range' 3 (s.rxlen - 5)).map (rxByteAt s))) s =
      writeSpec s := by
  rw [writeSpec]
  split_ifs with h8
  · have hlen : (rxByteAt s 2 :: (List.range' 3 (s.rxlen - 5)).map (rxByteAt s)).length ≠ 4 := by
      simp only [List.length_cons, List.length_map, List.length_range']
      omega
    rw [extractWrite, extractEcho_of_length_ne hlen]
    rfl
  · have hecho : extractEcho (rxByteAt s 2 :: (List.range' 3 (8 - 5)).map (rxByteAt s)) =
        .ok (be (rxByteAt s 2) (rxByteAt s 3), be (rxByteAt s 4) (rxByteAt s 5)) := rfl
    rw [not_not.mp h8, extractWrite, hecho]
    by_cases hsingle : e = fcWr1
    · simp only [if_pos hsingle]
      rfl
    · simp only [if_neg hsingle]
      rfl

/-- Steps 3 to 5 on the body are the rule's on offsets (42_decode R90 to R94). -/
theorem conclude_decodeBody (e : Byte) (s : State) (h5 : 5 ≤ s.rxlen) :
    conclude (decodeBody e (frameBody (rxFrame s))) s = bodySpec e s := by
  rw [frameBody_rxFrame_of_le s h5, decodeBody, bodySpec, show fcRead = 0x03#8 from rfl]
  split_ifs with hexc hcode hread
  · rfl
  · rfl
  · exact conclude_extractRead _ s
  · exact conclude_extractWrite e _ s h5

/-- DEC's effect is the rule's five steps on offsets of RXBUF, in every state and under every code (42_decode
R90). -/
theorem decFrame_eq_decSpec (e : Byte) (s : State) : decFrame e s = decSpec e s := by
  rw [decFrame_eq_conclude, decodeResponse, rxFrame_length, decSpec]
  by_cases h5 : s.rxlen < 5
  · rw [if_pos h5, if_pos h5, decCrc_short s h5]
    rfl
  rw [if_neg h5, if_neg h5, decCrc_long s (by omega)]
  by_cases hcrc : crcMatches (rxFrame s) = true
  · have hgood := (crcMatches_rxFrame s (by omega)).mp hcrc
    rw [if_pos hcrc, if_neg (not_not.mpr hgood)]
    exact conclude_decodeBody e (setCrc (rxCrc s) s) (by simpa using h5)
  · have hbad := mt (crcMatches_rxFrame s (by omega)).mpr hcrc
    rw [if_neg hcrc, if_pos hbad]
    rfl

end Sys2Proof.Machine
end

section
/-! SUPPORT. The payload step of DEC (spec 42_decode R93, R94): what DEC does with a frame that has passed its
first four checks, and the obligations on the two kinds of payload. -/

namespace Sys2Proof.Machine

/-- No admitted code has bit 7 set, the mark of an exception response (42_decode R91). -/
theorem admitted_bit7 {p : Params} {e : Byte} (h : admitted p e) : e.getLsbD 7 = false := by
  obtain rfl | rfl | ⟨rfl, -⟩ := h <;> rfl

/-- A frame that has passed the first four checks comes to step 5 with the computed CRC in CRC. -/
theorem execDec_payload {e : Byte} {s : State} (ha : admitted s.params e) (h5 : 5 ≤ s.rxlen)
    (hcrc : rxCrc s = be (rxByteAt s (s.rxlen - 1)) (rxByteAt s (s.rxlen - 2))) (hcode : rxByteAt s 1 = e) :
    exec (.dec e) s = .next
      (if e = 0x03#8 then readSpec (setCrc (rxCrc s) s) else writeSpec (setCrc (rxCrc s) s)) := by
  have hbit : ¬ (rxByteAt (setCrc (rxCrc s) s) 1).getLsbD 7 = true := by
    rw [rxByteAt_setCrc, hcode]
    exact Bool.eq_false_iff.mp (admitted_bit7 ha)
  rw [execDec_admitted e s ha, decFrame_eq_decSpec, decSpec, if_neg (by omega), if_neg (not_not.mpr hcrc)]
  show Host.Outcome.next (bodySpec e (setCrc (rxCrc s) s)) = _
  rw [bodySpec, if_neg hbit, rxByteAt_setCrc, if_neg (not_not.mpr hcode)]

/-- The two malformed causes of a read response (42_decode R93). -/
theorem readSpec_malformed (s : State)
    (h : (rxByteAt s 2).toNat ≠ s.rxlen - 5 ∨ (rxByteAt s 2).getLsbD 0 = true) :
    readSpec s = failed .malformedFrame 0x00#8 s := by
  rw [readSpec]
  split_ifs with hlen hodd
  · rfl
  · rfl
  · exact absurd h (not_or.mpr ⟨hlen, hodd⟩)

/-- A byte count that is even and fills the data region is half as many words (42_decode R93). -/
theorem readSpec_succeeded (s : State) (hlen : (rxByteAt s 2).toNat = s.rxlen - 5)
    (heven : (rxByteAt s 2).getLsbD 0 = false) :
    readSpec s = succeeded 3 ((rxByteAt s 2).toNat / 2) s := by
  rw [readSpec, if_neg (not_not.mpr hlen), if_neg (Bool.eq_false_iff.mp heven)]

/-- The words of a success stand in PWORD below their number, and no other element changes (42_decode R93). -/
theorem memFind_succeeded_pword (first n : Nat) (s : State) (i : Nat) :
    memFind (succeeded first n s).pword i =
      if i < n then some (be (rxByteAt s (first + 2 * i)) (rxByteAt s (first + 2 * i + 1)))
      else memFind s.pword i := by
  rw [succeeded, memFind_memWriteAll]
  simp only [List.length_map, List.length_range, Nat.zero_le, true_and, Nat.zero_add, Nat.sub_zero]
  split_ifs with hi
  · rw [List.getElem?_map, List.getElem?_range hi]
    rfl
  · rfl

/-- A frame of at most 256 bytes gives at most 125 words: each takes two bytes, and five stand around them
(42_decode R93). -/
theorem decFrame_pcount_le (e : Byte) (s : State) (h : s.rxlen ≤ 256) : (decFrame e s).pcount.toNat ≤ 125 := by
  obtain ⟨err, -, hf⟩ | ⟨r, hr, hf⟩ := decFrame_cases e s
  · rw [hf]
    exact Nat.zero_le _
  rw [hf]
  cases r with
  | read a ws =>
    obtain ⟨-, hlen⟩ := decodeResponse_read hr
    rw [rxFrame_length] at hlen
    simp only [applyResponse, deliver_pcount, BitVec.toNat_ofNat]
    omega
  | wr1 a reg val => exact (by decide : (2#8).toNat ≤ 125)
  | wrn a start n => exact (by decide : (2#8).toNat ≤ 125)
  | exc a fc code rest => exact Nat.zero_le _

/-- Settles O24: step 5 is `extract_read`, whose two malformed causes and success are the rule's; the bound is
that of a payload's words, and the three CRCs are computed. -/
theorem decReadPayload : Obligations.DecReadPayload := by
  unfold Obligations.DecReadPayload
  refine ⟨fun s h5 hcrc hcode => ?payload, fun s t hlen h => ?bound, ?_, ?_, ?_⟩
  case payload =>
    have hstep := execDec_payload (.inl rfl) h5 hcrc hcode
    rw [if_pos rfl] at hstep
    refine ⟨fun hbad => ?malformed, fun hbc heven => ?success⟩
    case malformed =>
      rw [hstep, readSpec_malformed _ (by simpa using hbad)]
      rfl
    case success =>
      rw [readSpec_succeeded _ (by simpa using hbc) (by simpa using heven)] at hstep
      refine ⟨_, hstep, rfl, rfl, rfl, ?count, fun i => ?words⟩
      case count =>
        simp only [succeeded, rxByteAt_setCrc, BitVec.toNat_ofNat]
        omega
      case words =>
        rw [show 4 + 2 * i = 3 + 2 * i + 1 by omega]
        exact memFind_succeeded_pword 3 _ (setCrc (rxCrc s) s) i
  case bound =>
    obtain ⟨-, rfl⟩ := execDec_next 0x03#8 s t h
    exact decFrame_pcount_le 0x03#8 s hlen
  all_goals decide +kernel

/-- Settles O25: step 5 is `extract_write`; its two words are the pairs at offsets 2 and 4. -/
theorem decWritePayload : Obligations.DecWritePayload := by
  unfold Obligations.DecWritePayload
  refine ⟨fun e s ha hne h5 hcrc hcode => ?payload, by decide +kernel, by decide +kernel⟩
  have hstep := execDec_payload ha h5 hcrc hcode
  rw [if_neg hne, writeSpec] at hstep
  refine ⟨fun h8 => ?malformed, fun h8 => ?success⟩
  case malformed =>
    rw [if_pos (by simpa using h8)] at hstep
    exact hstep
  case success =>
    rw [if_neg (by simpa using h8)] at hstep
    refine ⟨_, hstep, rfl, rfl, rfl, rfl, fun i => ?_⟩
    rw [memFind_succeeded_pword]
    obtain rfl | rfl | hi : i = 0 ∨ i = 1 ∨ 2 ≤ i := by omega
    · rfl
    · rfl
    · rw [if_neg (by omega), if_neg (by omega), if_neg (by omega)]
      rfl

end Sys2Proof.Machine
end

section
/-! SUPPORT. The errors DEC raises (spec 60_exceptions R115, R121): which error, with which code of the device, on
which CRC. -/

namespace Sys2Proof.Machine

/-- No error is recorded as NONE, the status before the first DEC (10_state R18). -/
theorem errorStatus_ne_none (err : ModbusError) : errorStatus err ≠ .none := by
  cases err <;> exact nofun

theorem errorStatus_eq_shortRead_iff (err : ModbusError) : errorStatus err = .shortRead ↔ err = .shortRead := by
  cases err <;> simp [errorStatus]

theorem errorStatus_eq_exceptionResponse {err : ModbusError} (h : errorStatus err = .exceptionResponse) :
    ∃ code, err = .exceptionResponse code := by
  cases err with
  | exceptionResponse code => exact ⟨code, rfl⟩
  | _ => cases h

/-- Only an exception response carries a code of the device (60_exceptions R121). -/
theorem errorInfo_eq_zero {err : ModbusError} (h : errorStatus err ≠ .exceptionResponse) : errorInfo err = 0x00#8 := by
  cases err with
  | exceptionResponse code => exact absurd rfl h
  | _ => rfl

/-- Steps 3 to 5 succeed or raise an error that is no ShortRead; an exception response carries byte 2
(42_decode R90, R91). -/
theorem bodySpec_ok_or_raises (e : Byte) (s : State) :
    (bodySpec e s).status = .ok ∨
    ∃ err, bodySpec e s = raiseError err s ∧ err ≠ .shortRead ∧
      ∀ code, err = .exceptionResponse code → code = rxByteAt s 2 := by
  rw [bodySpec, readSpec, writeSpec]
  split_ifs
  · exact .inr ⟨.exceptionResponse (rxByteAt s 2), rfl, nofun, fun _ h => (ModbusError.exceptionResponse.inj h).symm⟩
  · exact .inr ⟨.unexpectedFunctionCode, rfl, nofun, nofun⟩
  · exact .inr ⟨.malformedFrame, rfl, nofun, nofun⟩
  · exact .inr ⟨.malformedFrame, rfl, nofun, nofun⟩
  · exact .inl rfl
  · exact .inr ⟨.malformedFrame, rfl, nofun, nofun⟩
  · exact .inl rfl

/-- DEC succeeds or raises an error: ShortRead with CRC untouched, any other on the computed CRC, an exception
response with byte 2 (42_decode R90, 60_exceptions R121). -/
theorem decFrame_ok_or_raises (e : Byte) (s : State) :
    (decFrame e s).status = .ok ∨
    ∃ err c, decFrame e s = raiseError err (setCrc c s) ∧ (err = .shortRead → c = s.crc) ∧
      (err ≠ .shortRead → c = rxCrc s) ∧ ∀ code, err = .exceptionResponse code → code = rxByteAt s 2 := by
  rw [decFrame_eq_decSpec, decSpec]
  split_ifs with hshort hcrc
  · exact .inr ⟨.shortRead, s.crc, rfl, fun _ => rfl, (absurd rfl ·), nofun⟩
  · exact .inr ⟨.crcMismatch, rxCrc s, rfl, nofun, fun _ => rfl, nofun⟩
  · obtain hok | ⟨err, hraise, hlong, hcode⟩ := bodySpec_ok_or_raises e (setCrc (rxCrc s) s)
    · exact .inl hok
    · exact .inr ⟨err, rxCrc s, hraise, (absurd · hlong), fun _ => rfl, hcode⟩

/-- Settles O26: a DEC that does not end in OK has raised an error, and `raiseError` writes STATUS, EXC and PCOUNT
only, on the CRC the error leaves. -/
theorem errorRecordsExactly : Obligations.ErrorRecordsExactly := by
  unfold Obligations.ErrorRecordsExactly
  intro e s t h hfail
  obtain ⟨-, rfl⟩ := execDec_next e s t h
  obtain hok | ⟨err, c, hraise, hshort, hlong, hcode⟩ := decFrame_ok_or_raises e s
  · exact absurd hok hfail
  rw [hraise]
  refine ⟨errorStatus_ne_none err, rfl, fun hst => ?_, fun hst => ?_, fun hst => ?_, errorInfo_eq_zero,
    rfl, rfl, rfl, rfl, rfl⟩
  · exact hshort ((errorStatus_eq_shortRead_iff err).mp hst)
  · exact hlong (mt (errorStatus_eq_shortRead_iff err).mpr hst)
  · obtain ⟨code, rfl⟩ := errorStatus_eq_exceptionResponse hst
    exact hcode code rfl

end Sys2Proof.Machine
end

section
/-! SUPPORT. The register numbers (spec 10_state R29): the number of each register, and what a number that has a
register says of it. -/

namespace Sys2Proof.Machine

/-- The number of a register in the table of 10_state R29. -/
def Reg.number : Reg → Nat
  | .slave => 0x000
  | .addr => 0x001
  | .arg => 0x002
  | .crc => 0x003
  | .status => 0x004
  | .exc => 0x005
  | .pcount => 0x006
  | .txlen => 0x007
  | .rxlen => 0x008
  | .wdata i => 0x100 + i
  | .pword i => 0x180 + i
  | .txbuf i => 0x200 + i
  | .rxbuf i => 0x400 + i

/-- A scalar register is found under its own number; no array element is a scalar register. -/
theorem scalarReg_some {n : Nat} {r : Reg} (h : scalarReg n = some r) :
    r.number = n ∧ ∀ i, r ≠ .wdata i := by
  unfold scalarReg at h
  split at h <;> cases h <;> exact ⟨rfl, nofun⟩

/-- The register of a number has that number, and one of WDATA is one the block has. -/
theorem regOf_some {p : Params} {n : Nat} {r : Reg} (h : regOf p n = some r) :
    r.number = n ∧ ∀ i, r = .wdata i → p.hasFc10 = true ∧ i < p.wmax := by
  rw [regOf] at h
  by_cases hscalar : n < 0x100
  · rw [if_pos hscalar] at h
    obtain ⟨hn, hne⟩ := scalarReg_some h
    exact ⟨hn, fun i hi => absurd hi (hne i)⟩
  rw [if_neg hscalar] at h
  split_ifs at h with _ hw <;> cases h
  · exact ⟨by simp only [Reg.number]; omega, fun i hi => Reg.wdata.inj hi ▸ hw⟩
  all_goals exact ⟨by simp only [Reg.number]; omega, nofun⟩

/-- The scalar registers have the first nine numbers (10_state R29). -/
theorem regOf_scalar (p : Params) {n : Nat} (h : n < 0x100) : regOf p n = scalarReg n := if_pos h

/-- The 128 numbers of WDATA (10_state R29, R16). -/
theorem regOf_wdata (p : Params) {i : Nat} (h : i < 0x80) :
    regOf p (0x100 + i) = if p.hasFc10 = true ∧ i < p.wmax then some (.wdata i) else none := by
  rw [regOf, if_neg (by omega), if_pos (by omega), Nat.add_sub_cancel_left]

/-- The 128 numbers of PWORD (10_state R29). -/
theorem regOf_pword (p : Params) {i : Nat} (h : i < 0x80) :
    regOf p (0x180 + i) = if i < p.pmax then some (.pword i) else none := by
  rw [regOf, if_neg (by omega), if_neg (by omega), if_pos (by omega), Nat.add_sub_cancel_left]

/-- The 512 numbers of TXBUF (10_state R29). -/
theorem regOf_txbuf (p : Params) {i : Nat} (h : i < 0x200) :
    regOf p (0x200 + i) = if i < p.frameMax then some (.txbuf i) else none := by
  rw [regOf, if_neg (by omega), if_neg (by omega), if_neg (by omega), if_pos (by omega), Nat.add_sub_cancel_left]

/-- The numbers of RXBUF (10_state R29). -/
theorem regOf_rxbuf (p : Params) (i : Nat) :
    regOf p (0x400 + i) = if i < p.frameMax then some (.rxbuf i) else none := by
  rw [regOf, if_neg (by omega), if_neg (by omega), if_neg (by omega), if_neg (by omega), Nat.add_sub_cancel_left]

/-- WDATA never has more than 127 elements (00_scope R5). -/
theorem wmax_le (p : Params) : p.wmax ≤ 127 := Nat.min_le_left _ _

/-- PWORD never has more than 127 elements (00_scope R5). -/
theorem pmax_le (p : Params) : p.pmax ≤ 127 := Nat.min_le_left _ _

/-- No scalar register has a number from 0x009 on. -/
theorem scalarReg_none {n : Nat} (h : 0x009 ≤ n) : scalarReg n = none := by
  unfold scalarReg
  split
  case h_10 => rfl
  all_goals omega

/-- Settles O45: each number's register is the table's entry, and a register's number is a function of it. -/
theorem registerNumbersAreTheTable : Obligations.RegisterNumbersAreTheTable := by
  unfold Obligations.RegisterNumbersAreTheTable
  intro p hwf
  have hw := wmax_le p
  have hp := pmax_le p
  refine ⟨rfl, fun n h9 hn => ?_, fun hf i hi => ?_, fun i hi => ?_, fun i hi => ⟨?_, ?_⟩, fun i hi h80 => ?_,
    fun hf i h80 => ?_, fun i hi h80 => ?_, fun i hi h200 => ?_, fun i hi => ?_, fun m n r hm hn => ?_⟩
  · rw [regOf_scalar p hn, scalarReg_none h9]
  · rw [regOf_wdata p (by omega), if_pos ⟨hf, hi⟩]
  · rw [regOf_pword p (by omega), if_pos hi]
  · rw [regOf_txbuf p (by omega), if_pos hi]
  · rw [regOf_rxbuf, if_pos hi]
  · rw [regOf_wdata p h80, if_neg (by omega)]
  · rw [regOf_wdata p h80, if_neg (by simp [hf])]
  · rw [regOf_pword p h80, if_neg (by omega)]
  · rw [regOf_txbuf p h200, if_neg (by omega)]
  · rw [regOf_rxbuf, if_neg (by omega)]
  · exact (regOf_some hm).1.symm.trans (regOf_some hn).1

end Sys2Proof.Machine
end

section
/-! SUPPORT. The frame rows as instructions (spec 30_encoding R45 to R52; log 12): when each is accepted. -/

namespace Sys2Proof.Machine

/-- RQ_WRN is nine bytes and two for each word (30_encoding R48). -/
theorem bodyRqWrn_frame_length (a : Byte) (start : Word) (data : List Word) :
    (withTrailer (bodyRqWrn a start data)).length = 9 + 2 * data.length := by
  simp only [withTrailer_length, bodyRqWrn, beBytes, List.length_cons, List.length_append, List.length_nil,
    bytesOfWords_length]
  omega

/-- RQ_WRN as an instruction is accepted under ENC_WRN's conditions (41_encode R79; log 12). -/
theorem exec_rqWrn_accepted (a : Byte) (start : Word) {data : List Word} {s : State} (hf : s.params.hasFc10 = true)
    (h1 : 1 ≤ data.length) (hmax : data.length ≤ s.params.wmax) :
    exec (.rqWrn a start data) s = .next (buildFrame (bodyRqWrn a start data) s) := by
  show execRqWrn a start data s = _
  rw [execRqWrn, if_neg (by simp [hf]), if_neg (by omega)]

/-- A response that fits the buffers is accepted and has its effect (log 12). -/
theorem exec_toInstr {r : Response} {s : State} (h : responseFits s.params r) :
    exec r.toInstr s = .next (takeResponse r s) := by
  cases r with
  | read a ws => exact if_neg (Nat.not_lt.mpr h)
  | wr1 a reg val => rfl
  | wrn a start n => exact if_neg (by rw [show s.params.hasFc10 = true from h]; decide)
  | exc a fc code rest => exact if_neg (Nat.not_lt.mpr h)

/-- A response that does not fit the buffers, or needs the absent function, is refused (log 12). -/
theorem exec_toInstr_refused {r : Response} {s : State} (h : ¬ responseFits s.params r) :
    ∃ q, exec r.toInstr s = .refused q := by
  cases r with
  | read a ws => exact ⟨_, if_pos (Nat.lt_of_not_le h)⟩
  | wr1 a reg val => exact absurd trivial h
  | wrn a start n => exact ⟨_, if_pos (Bool.eq_false_iff.mpr h)⟩
  | exc a fc code rest => exact ⟨_, if_pos (Nat.lt_of_not_le h)⟩

end Sys2Proof.Machine
end

section
/-! SUPPORT. The invariant (spec 10_state R18 to R24, 20_memory R37): each update of the state keeps it, so each
instruction, each bus operation and each step do; and what it says of the lengths the host reads. -/

namespace Sys2Proof.Machine

/-- Consecutive writes from index 0 leave every index they cover written. -/
theorem memWritten_memWriteAll {w : Nat} (m : Memory w) (bs : List (BitVec w)) :
    memWritten (memWriteAll m 0 bs) bs.length := by
  intro i hi
  rw [memFind_memWriteAll, if_pos (by omega), Nat.sub_zero, List.getElem?_eq_getElem hi]
  rfl

/-- A write leaves the written part written. -/
theorem memWritten_memWrite {w n : Nat} {m : Memory w} (h : memWritten m n) (b : BitVec w) :
    memWritten (memWrite m n b) (n + 1) := by
  intro i hi
  rw [memFind_memWrite]
  split_ifs with hin
  · rfl
  · exact h i (by omega)

/-- Step 2 writes CRC only. -/
theorem decCrc_eq_setCrc (s : State) : ∃ c, decCrc s = setCrc c s :=
  (decCrc_cases s).elim (fun hc => ⟨s.crc, hc⟩) id

/-- The reset input establishes the invariant from any state with admitted parameters. -/
theorem applyReset_inv {s : State} (hparams : s.params.wf) : (applyReset s).Inv where
  params := hparams
  txbuf := ⟨List.Pairwise.nil, nofun⟩
  rxbuf := ⟨List.Pairwise.nil, nofun⟩
  wdata := ⟨List.Pairwise.nil, nofun⟩
  pword := ⟨List.Pairwise.nil, nofun⟩
  txlen := ⟨Nat.zero_le _, nofun⟩
  rxlen := ⟨Nat.zero_le _, nofun⟩
  pcount := ⟨Nat.zero_le _, nofun⟩
  exc := fun _ => rfl
  payload := fun _ => rfl

section
variable {s t : State} (h : s.Inv)
include h

/-- The invariant does not speak of the operand scalars, of CRC and of what is not the block's. -/
theorem State.Inv.of_other_fields (slave : Byte) (addr arg crc : Word) (events : List HostEvent)
    (rsp : Option BusResponse) (draws : Nat) :
    { s with
      slave := slave, addr := addr, arg := arg, crc := crc, events := events, rsp := rsp, draws := draws }.Inv :=
  ⟨h.params, h.txbuf, h.rxbuf, h.wdata, h.pword, h.txlen, h.rxlen, h.pcount, h.exc, h.payload⟩

/-- A frame that fits the transmit buffer keeps the invariant. -/
theorem State.Inv.buildFrame {body : List Byte} (hfit : body.length + 2 ≤ s.params.frameMax) :
    (buildFrame body s).Inv := by
  have hlen : (withTrailer body).length ≤ s.params.frameMax := by rwa [withTrailer_length]
  exact {
    params := h.params
    txbuf := ⟨memWriteAll_wf _ _ _ h.txbuf.1, memWriteAll_below _ _ _ _ (by simpa using hfit) h.txbuf.2⟩
    rxbuf := h.rxbuf
    wdata := h.wdata
    pword := h.pword
    txlen := ⟨hlen, memWritten_memWriteAll _ _⟩
    rxlen := h.rxlen
    pcount := h.pcount
    exc := h.exc
    payload := h.payload }

/-- A payload that fits PWORD keeps the invariant. -/
theorem State.Inv.deliver {ws : List Word} (hfit : ws.length ≤ s.params.pmax) : (deliver ws s).Inv := by
  have hcount : (BitVec.ofNat 8 ws.length).toNat = ws.length := by
    have hmax := pmax_le s.params
    rw [BitVec.toNat_ofNat, Nat.mod_eq_of_lt (by omega)]
  exact {
    params := h.params
    txbuf := h.txbuf
    rxbuf := h.rxbuf
    wdata := h.wdata
    pword := ⟨memWriteAll_wf _ _ _ h.pword.1, memWriteAll_below _ _ _ _ (by simpa using hfit) h.pword.2⟩
    txlen := h.txlen
    rxlen := h.rxlen
    pcount := by
      rw [deliver_pcount, hcount]
      exact ⟨hfit, memWritten_memWriteAll _ _⟩
    exc := fun _ => rfl
    payload := (absurd rfl ·) }

/-- An error raised keeps the invariant: it clears PCOUNT, and EXC unless it is the device's. -/
theorem State.Inv.raiseError (err : ModbusError) : (raiseError err s).Inv where
  params := h.params
  txbuf := h.txbuf
  rxbuf := h.rxbuf
  wdata := h.wdata
  pword := h.pword
  txlen := h.txlen
  rxlen := h.rxlen
  pcount := ⟨Nat.zero_le _, nofun⟩
  exc := errorInfo_eq_zero
  payload := fun _ => rfl

/-- A response that fits PWORD keeps the invariant; two echoed words always fit. -/
theorem State.Inv.applyResponse {r : Response} (hfit : ∀ a ws, r = .read a ws → ws.length ≤ s.params.pmax) :
    (applyResponse r s).Inv := by
  have htwo : 2 ≤ s.params.pmax := by
    have hmin := h.params.1
    rw [Params.pmax]
    omega
  cases r with
  | read a ws => exact h.deliver (hfit a ws rfl)
  | wr1 a reg val => exact h.deliver htwo
  | wrn a start n => exact h.deliver htwo
  | exc a fc code rest => exact h.raiseError _

/-- DEC keeps the invariant: what it delivers came out of RXBUF, so it fits PWORD. -/
theorem State.Inv.decFrame (e : Byte) : (decFrame e s).Inv := by
  obtain ⟨c, hc⟩ := decCrc_eq_setCrc s
  have hcrc : (setCrc c s).Inv := h.of_other_fields ..
  obtain ⟨err, -, hf⟩ | ⟨r, hr, hf⟩ := decFrame_cases e s <;> rw [hf, hc]
  · exact hcrc.raiseError err
  · refine hcrc.applyResponse fun a ws hread => ?_
    obtain ⟨h127, hlen⟩ := decodeResponse_read (hread ▸ hr)
    have hmax := h.rxlen.1
    rw [rxFrame_length] at hlen
    rw [setCrc_params, Params.pmax]
    omega

/-- An emptied receive buffer keeps the invariant. -/
theorem State.Inv.rxClear : { s with rxlen := 0 }.Inv :=
  ⟨h.params, h.txbuf, h.rxbuf, h.wdata, h.pword, h.txlen, ⟨Nat.zero_le _, nofun⟩, h.pcount, h.exc, h.payload⟩

/-- A byte received into a buffer with room keeps the invariant. -/
theorem State.Inv.rxByte (b : Byte) (hroom : s.rxlen < s.params.frameMax) :
    { s with rxbuf := memWrite s.rxbuf s.rxlen b, rxlen := s.rxlen + 1 }.Inv where
  params := h.params
  txbuf := h.txbuf
  rxbuf := ⟨memWrite_wf _ _ _ h.rxbuf.1, memWrite_below _ _ _ _ hroom h.rxbuf.2⟩
  wdata := h.wdata
  pword := h.pword
  txlen := h.txlen
  rxlen := ⟨hroom, memWritten_memWrite h.rxlen.2 b⟩
  pcount := h.pcount
  exc := h.exc
  payload := h.payload

/-- A WR keeps the invariant where WDATA has the element it names. -/
theorem State.Inv.writeReg (v : Word) (r : Reg) (hr : ∀ i, r = .wdata i → i < s.params.wmax) :
    (writeReg v s r).Inv := by
  cases r with
  | wdata i =>
    exact ⟨h.params, h.txbuf, h.rxbuf,
      ⟨memWrite_wf _ _ _ h.wdata.1, memWrite_below _ _ _ _ (hr i rfl) h.wdata.2⟩,
      h.pword, h.txlen, h.rxlen, h.pcount, h.exc, h.payload⟩
  | slave => exact h.of_other_fields ..
  | addr => exact h.of_other_fields ..
  | arg => exact h.of_other_fields ..
  | _ => exact h

/-- The frame of at most WMAX words fits the transmit buffer (00_scope R5). -/
theorem State.Inv.wrn_fits (a : Byte) (start : Word) {data : List Word} (hw : data.length ≤ s.params.wmax) :
    (bodyRqWrn a start data).length + 2 ≤ s.params.frameMax := by
  have hmin := h.params.1
  have hlen := bodyRqWrn_frame_length a start data
  rw [withTrailer_length] at hlen
  rw [Params.wmax] at hw
  omega

/-- A response row that completes keeps the invariant: it fits the buffers (log 12). -/
theorem State.Inv.toInstr {r : Response} (hx : exec r.toInstr s = .next t) : t.Inv := by
  by_cases hfit : responseFits s.params r
  · rw [exec_toInstr hfit] at hx
    refine Host.Outcome.next.inj hx ▸ State.Inv.applyResponse (h.of_other_fields ..) ?_
    rintro a ws rfl
    exact hfit
  · obtain ⟨q, hq⟩ := exec_toInstr_refused hfit
    rw [hq] at hx
    cases hx

/-- Every instruction that completes keeps the invariant. -/
theorem State.Inv.exec {i : Instr} (hx : exec i s = .next t) : t.Inv := by
  have hshort : 6 + 2 ≤ s.params.frameMax := by
    have hmin := h.params.1
    omega
  cases i with
  | crcInit imm => exact Host.Outcome.next.inj hx ▸ h.of_other_fields ..
  | crcByte imm => exact Host.Outcome.next.inj hx ▸ h.of_other_fields ..
  | encRead imm => exact Host.Outcome.next.inj hx ▸ h.buildFrame hshort
  | encWr1 imm => exact Host.Outcome.next.inj hx ▸ h.buildFrame hshort
  | encWrn imm =>
    obtain ⟨r, hr⟩ | ⟨-, -, hmax, hn⟩ := execEncWrn_cases imm s
    · rw [hr] at hx
      cases hx
    · rw [hn] at hx
      exact Host.Outcome.next.inj hx ▸
        State.Inv.buildFrame (h.of_other_fields ..) (h.wrn_fits _ _ (by simpa using hmax))
  | rxClear imm => exact Host.Outcome.next.inj hx ▸ h.rxClear
  | rxByte imm =>
    by_cases hroom : s.rxlen < s.params.frameMax
    · rw [exec_rxByte_room imm s hroom] at hx
      exact Host.Outcome.next.inj hx ▸ h.rxByte imm hroom
    · rw [exec_rxByte_full imm s (by omega)] at hx
      cases hx
  | dec imm => exact (execDec_next imm s t hx).2 ▸ h.decFrame imm
  | rqRead a start count => exact Host.Outcome.next.inj hx ▸ h.buildFrame hshort
  | rqWr1 a reg val => exact Host.Outcome.next.inj hx ▸ h.buildFrame hshort
  | rqWrn a start data =>
    change execRqWrn a start data s = _ at hx
    rw [execRqWrn] at hx
    split_ifs at hx with _ hcount
    exact Host.Outcome.next.inj hx ▸ h.buildFrame (h.wrn_fits _ _ (by omega))
  | rsRead a words => exact h.toInstr (r := .read a words) hx
  | rsWr1 a reg val => exact h.toInstr (r := .wr1 a reg val) hx
  | rsWrn a start n => exact h.toInstr (r := .wrn a start n) hx
  | rsExc a fc code rest => exact h.toInstr (r := .exc a fc code rest) hx

/-- A request of any kind keeps the invariant. -/
theorem State.Inv.serveRequest {k : BitVec 2} {a : BitVec 12} {d : Word} (hx : serveRequest k a d s = .next t) :
    t.Inv := by
  obtain hq | hq | hq | hq := serveRequest_cases k a d s <;> rw [hq] at hx
  · obtain ⟨r, n, hread⟩ := serveRead_eq a.toNat s
    exact Host.Outcome.next.inj hx ▸ hread ▸ h.of_other_fields ..
  · obtain rfl := Host.Outcome.next.inj hx
    rw [serveWrite]
    cases hreg : regOf s.params a.toNat with
    | none => exact h.of_other_fields ..
    | some r =>
      obtain ⟨-, hwdata⟩ := regOf_some hreg
      exact State.Inv.of_other_fields (h.writeReg d r fun i hi => (hwdata i hi).2) ..
  · obtain haway | ⟨i, u, -, hi, hran⟩ := serveCommand_cases d s
    · rw [haway] at hx
      exact Host.Outcome.next.inj hx ▸ h.of_other_fields ..
    · rw [hran] at hx
      exact Host.Outcome.next.inj hx ▸ State.Inv.of_other_fields (h.exec hi) ..
  · exact Host.Outcome.next.inj hx ▸ h.of_other_fields ..

end

/-- Settles O49: an idle step changes nothing, the reset input establishes the invariant, and a request keeps it. -/
theorem stepKeepsInvariant : Obligations.StepKeepsInvariant := by
  unfold Obligations.StepKeepsInvariant
  intro s t h hstep
  obtain ⟨-, hidle⟩ | ⟨rest, -, hreset⟩ | ⟨k, a, d, rest, -, hreq⟩ := step_cases s
  · exact Host.Outcome.next.inj (hidle.symm.trans hstep) ▸ h
  · exact Host.Outcome.next.inj (hreset.symm.trans hstep) ▸ applyReset_inv h.params
  · exact State.Inv.serveRequest (h.of_other_fields ..) (hreq.symm.trans hstep)

/-- Settles O48: the state after reset is what the reset input makes of it, and its parameters are admitted. -/
theorem invariantHoldsAtReset : Obligations.InvariantHoldsAtReset :=
  applyReset_inv (s := State.reset) (by decide)

/-- A length of at most FRAME_MAX fits LENW bits (00_scope R5). -/
theorem lt_two_pow_lenw {p : Params} {n : Nat} (h : n ≤ p.frameMax) : n < 2 ^ p.lenw :=
  (Nat.lt_succ_of_le h).trans_le (Nat.le_pow_clog Nat.one_lt_two _)

/-- A length of an admitted block is itself as a word on the bus (10_state R27). -/
theorem toNat_ofNat_of_wf {p : Params} (hp : p.wf) {n : Nat} (h : n ≤ p.frameMax) :
    (BitVec.ofNat 16 n).toNat = n := by
  have hmax := hp.2
  rw [BitVec.toNat_ofNat, Nat.mod_eq_of_lt (by omega)]

/-- A byte on the 16-bit bus is the same number (30_encoding R53). -/
theorem zext16_toNat (b : Byte) : (zext16 b).toNat = b.toNat := by
  rw [zext16, BitVec.toNat_setWidth, Nat.mod_eq_of_lt (by omega)]

/-- Settles O50: the invariant bounds both lengths by FRAME_MAX and PCOUNT by PMAX, and a number so bounded is
read back whole. -/
theorem lengthsFitTheirRegisters : Obligations.LengthsFitTheirRegisters := by
  unfold Obligations.LengthsFitTheirRegisters
  intro s h
  exact ⟨lt_two_pow_lenw h.txlen.1, lt_two_pow_lenw h.rxlen.1, h.pcount.1,
    ⟨_, rfl, toNat_ofNat_of_wf h.params h.txlen.1⟩, ⟨_, rfl, toNat_ofNat_of_wf h.params h.rxlen.1⟩,
    ⟨_, rfl, zext16_toNat s.pcount⟩⟩

end Sys2Proof.Machine
end

section
/-! SUPPORT. Decode and encode (spec 30_encoding R45 to R57): a frame under its own trailer is read by its body,
each row's body is read back as the row, and a command word is the encoding of the command it decodes to. -/

namespace Sys2Proof.Machine

/-- A request frame under the trailer its body requires is read by its body (30_encoding R46 to R48; log 15). -/
theorem decodeRequest_withTrailer {body : List Byte} (h : 6 ≤ body.length) :
    decodeRequest (withTrailer body) = decodeRequestBody body := by
  rw [decodeRequest, withTrailer_length, if_neg (by omega), if_pos (crcMatches_withTrailer body),
    frameBody_withTrailer]

/-- A response frame under the trailer its body requires comes to steps 3 to 5 with that body (42_decode R90). -/
theorem decodeResponse_withTrailer (e : Byte) {body : List Byte} (h : 3 ≤ body.length) :
    decodeResponse e (withTrailer body) = decodeBody e body := by
  rw [decodeResponse, withTrailer_length, if_neg (by omega), if_pos (crcMatches_withTrailer body),
    frameBody_withTrailer]

/-- The body of RQ_WRN is read back where its byte can hold the byte count (30_encoding R48). -/
theorem decodeRequestBody_rqWrn (a : Byte) (start : Word) {data : List Word} (h1 : 1 ≤ data.length)
    (h127 : data.length ≤ 127) : decodeRequestBody (bodyRqWrn a start data) = .ok (.rqWrn a start data) := by
  have hcounts : (bytesOfWords data).length = 2 * (BitVec.ofNat 16 data.length).toNat ∧
      (BitVec.ofNat 8 (2 * data.length)).toNat = (bytesOfWords data).length ∧
      1 ≤ (BitVec.ofNat 16 data.length).toNat := by
    rw [bytesOfWords_length, BitVec.toNat_ofNat, BitVec.toNat_ofNat]
    omega
  show decodeWrnData a (be (hi start) (lo start)) (be (hi (BitVec.ofNat 16 data.length)) _) _ _ = _
  rw [be_hi_lo, be_hi_lo, decodeWrnData, if_pos hcounts, wordsOfBytes_bytesOfWords]

/-- The data region of RS_READ is read back where its byte can hold the byte count (42_decode R93). -/
theorem extractRead_words (a : Byte) {ws : List Word} (h : ws.length ≤ 127) :
    extractRead a (BitVec.ofNat 8 (2 * ws.length) :: bytesOfWords ws) = .ok (.read a ws) := by
  have hcount : (BitVec.ofNat 8 (2 * ws.length)).toNat = 2 * ws.length := by
    rw [BitVec.toNat_ofNat, Nat.mod_eq_of_lt (by omega)]
  have heven : ¬ (BitVec.ofNat 8 (2 * ws.length)).getLsbD 0 = true := by
    rw [BitVec.getLsbD, hcount]
    simp
  rw [extractRead, if_neg (by rw [hcount, bytesOfWords_length]; simp), if_neg heven, wordsOfBytes_bytesOfWords]

/-- The function code byte of an exception response: bit 7 set, the request's code below it (30_encoding R52). -/
theorem excCode_bits (fc : BitVec 7) :
    (1#1 ++ fc : Byte).getLsbD 7 = true ∧ (1#1 ++ fc : Byte).extractLsb' 0 7 = fc := by
  revert fc
  decide

/-- Every response row has at least three bytes before its trailer (30_encoding R49 to R52). -/
theorem three_le_body_length (r : Response) : 3 ≤ r.body.length := by
  cases r <;> simp [Response.body, bodyRsRead, bodyRsWr1, bodyRsWrn, bodyRsExc, beBytes]

/-- Steps 3 to 5 under a code that selects a response's row read its body back (42_decode R90 to R94). -/
theorem decodeBody_body {e : Byte} {r : Response} (hu : responseUnder e r)
    (hlen : ∀ a ws, r = .read a ws → ws.length ≤ 127) : decodeBody e r.body = .ok r := by
  cases r with
  | read a ws =>
    obtain rfl : e = fcRead := hu
    exact extractRead_words a (hlen a ws rfl)
  | wr1 a reg val =>
    obtain rfl : e = fcWr1 := hu
    show Except.ok (Response.wr1 a (be (hi reg) (lo reg)) (be (hi val) (lo val))) = _
    rw [be_hi_lo, be_hi_lo]
  | wrn a start n =>
    obtain rfl : e = fcWrn := hu
    show Except.ok (Response.wrn a (be (hi start) (lo start)) (be (hi n) (lo n))) = _
    rw [be_hi_lo, be_hi_lo]
  | exc a fc code rest =>
    obtain ⟨hbit, hfc⟩ := excCode_bits fc
    rw [Response.body, bodyRsExc, decodeBody, if_pos hbit, hfc]

/-- `decode_response` reads a response frame back under a code that selects its row (42_decode R90). -/
theorem decodeResponse_body {e : Byte} {r : Response} (hu : responseUnder e r)
    (hlen : ∀ a ws, r = .read a ws → ws.length ≤ 127) : decodeResponse e (withTrailer r.body) = .ok r := by
  rw [decodeResponse_withTrailer e (three_le_body_length r), decodeBody_body hu hlen]

/-- A response frame is read back by its own function code byte (30_encoding R54). -/
theorem decodeOwn_body {r : Response} (hlen : ∀ a ws, r = .read a ws → ws.length ≤ 127) :
    decodeOwn (withTrailer r.body) = .ok r := by
  cases r with
  | read a ws => exact (if_pos (.inl rfl)).trans (decodeResponse_body (e := fcRead) rfl hlen)
  | wr1 a reg val => exact (if_pos (.inr (.inl rfl))).trans (decodeResponse_body (e := fcWr1) rfl hlen)
  | wrn a start n => exact (if_pos (.inr (.inr rfl))).trans (decodeResponse_body (e := fcWrn) rfl hlen)
  | exc a fc code rest =>
    rw [decodeOwn]
    split_ifs
    · exact decodeResponse_body trivial hlen
    · exact decodeResponse_body trivial hlen

/-- A response row is read back from its encoding. -/
theorem decode_encode_toInstr {r : Response} (hlen : ∀ a ws, r = .read a ws → ws.length ≤ 127) :
    decode (encode r.toInstr) = .ok r.toInstr := by
  have henc : encode r.toInstr = .response (withTrailer r.body) := by cases r <;> rfl
  rw [henc, decode, decodeOwn_body hlen]

/-- A request row whose body is read back is read back from its frame. -/
theorem decode_request_withTrailer {body : List Byte} {i : Instr} (h6 : 6 ≤ body.length)
    (h : decodeRequestBody body = .ok i) : decode (.request (withTrailer body)) = .ok i := by
  rw [decode, decodeRequest_withTrailer h6, h]

/-- A command is read back from its word. -/
theorem decode_command (op : BitVec 3) (imm : Byte) :
    decode (.command (commandWord op imm)) = .ok (decodeOp op imm) := decodeCommand_commandWord op imm

/-- Settles O52: a command by the fields of its word, a request by its body, a response under the code that
selects its row; an exception response of any length is such a row. -/
theorem decodeOfEncode : Obligations.DecodeOfEncode := by
  unfold Obligations.DecodeOfEncode
  refine ⟨fun i hwf => ?_, fun a fc code rest => decode_encode_toInstr (r := .exc a fc code rest) nofun⟩
  cases i with
  | crcInit imm => exact decode_command 0#3 imm
  | crcByte imm => exact decode_command 1#3 imm
  | encRead imm => exact decode_command 2#3 imm
  | encWr1 imm => exact decode_command 3#3 imm
  | encWrn imm => exact decode_command 4#3 imm
  | rxClear imm => exact decode_command 5#3 imm
  | rxByte imm => exact decode_command 6#3 imm
  | dec imm => exact decode_command 7#3 imm
  | rqRead a start count =>
    refine decode_request_withTrailer (by simp [bodyRqRead, beBytes]) ?_
    show Except.ok (Instr.rqRead a (be (hi start) (lo start)) (be (hi count) (lo count))) = _
    rw [be_hi_lo, be_hi_lo]
  | rqWr1 a reg val =>
    refine decode_request_withTrailer (by simp [bodyRqWr1, beBytes]) ?_
    show Except.ok (Instr.rqWr1 a (be (hi reg) (lo reg)) (be (hi val) (lo val))) = _
    rw [be_hi_lo, be_hi_lo]
  | rqWrn a start data =>
    obtain ⟨h1, h127⟩ : 1 ≤ data.length ∧ data.length ≤ 127 := by simpa [Instr.wellFormed] using hwf
    exact decode_request_withTrailer (by simp [bodyRqWrn, beBytes]) (decodeRequestBody_rqWrn a start h1 h127)
  | rsRead a words =>
    refine decode_encode_toInstr (r := .read a words) fun _ ws hread => ?_
    obtain ⟨-, rfl⟩ := Response.read.inj hread
    simpa [Instr.wellFormed] using hwf
  | rsWr1 a reg val => exact decode_encode_toInstr (r := .wr1 a reg val) nofun
  | rsWrn a start n => exact decode_encode_toInstr (r := .wrn a start n) nofun
  | rsExc a fc code rest => exact decode_encode_toInstr (r := .exc a fc code rest) nofun

/-- The command of an opcode and an immediate is encoded as the word of the two (30_encoding R56, R60). -/
theorem encode_decodeOp (op : BitVec 3) (imm : Byte) :
    encode (decodeOp op imm) = .command (commandWord op imm) := by
  obtain ⟨n, hn⟩ := op
  interval_cases n <;> rfl

/-- Settles O53: with the upper bits 0 the word is made of its opcode and immediate, so it is the encoding of what
it decodes to. -/
theorem commandWordsHaveOneMeaning : Obligations.CommandWordsHaveOneMeaning := by
  unfold Obligations.CommandWordsHaveOneMeaning
  refine fun cw => ⟨fun hzero => ?_, fun hbits => if_neg hbits⟩
  refine ⟨decodeOp (cwOp cw) (cwImm cw), if_pos hzero, ?_⟩
  rw [encode_decodeOp, commandWord_fields cw hzero]

/-- Settles O54: each word or frame is computed to be the encoding of its instruction, which is read back. -/
theorem specWordsDecode : Obligations.SpecWordsDecode := by
  unfold Obligations.SpecWordsDecode
  obtain ⟨hread, -⟩ := decodeOfEncode
  have hrq : Packet.request [0x01, 0x03, 0x00, 0x00, 0x00, 0x01, 0x84, 0x0A] =
      encode (.rqRead 0x01#8 0x0000#16 0x0001#16) := by decide +kernel
  have hrs : Packet.response [0x01, 0x03, 0x02, 0x00, 0xEB, 0xF8, 0x0B] = encode (.rsRead 0x01#8 [0x00EB#16]) := by
    decide +kernel
  have hexc : Packet.response [0x01, 0x83, 0x02, 0xC0, 0xF1] = encode (.rsExc 0x01#8 0x03#7 0x02#8 []) := by
    decide +kernel
  refine ⟨decode_command 1#3 0x01#8, decode_command 2#3 0x00#8, decode_command 7#3 0x03#8,
    (commandWordsHaveOneMeaning 0x0801#16).2 (by decide), ?_, ?_, ?_⟩
  · rw [hrq, hread _ rfl]
  · rw [hrs, hread _ rfl]
  · rw [hexc, hread _ rfl]

end Sys2Proof.Machine
end

section
/-! SUPPORT. The CRC engine (spec 40_crc): its table and bit-serial forms, linearity, and that no step loses
anything, which makes a frame's residue zero exactly when its trailer matches. -/

namespace Sys2Proof.Machine

/-! ### The forms of `crc_step` -/

/-- A byte's bits stand in the low half of a word. -/
theorem zext16_getLsbD (b : Byte) (i : Nat) : (zext16 b).getLsbD i = b.getLsbD i := by
  rw [zext16, BitVec.getLsbD_setWidth]
  by_cases hi : i < 16
  · simp [hi]
  · simp [hi, BitVec.getLsbD_of_ge b i (by omega)]

/-- A byte has nothing in the upper half of the register. -/
theorem zext16_shiftRight_eight (b : Byte) : zext16 b >>> 8 = 0#16 := by
  apply BitVec.eq_of_getLsbD_eq
  intro i hi
  rw [BitVec.getLsbD_ushiftRight, zext16_getLsbD, BitVec.getLsbD_of_ge b _ (by omega), BitVec.getLsbD_zero]

theorem zext16_xor (a b : Byte) : zext16 (a ^^^ b) = zext16 a ^^^ zext16 b := BitVec.setWidth_xor

theorem zext16_injective : Function.Injective zext16 := fun a b h => by
  rw [← lo_zext16 a, h, lo_zext16]

/-- Passes over a register whose low bits are 0 only shift: the tested bit is never 1 (40_crc R65). -/
theorem crcShifts_of_low_zero (n : Nat) : ∀ c : Word, (∀ i < n, c.getLsbD i = false) → crcShifts n c = c >>> n := by
  induction n with
  | zero => exact fun c _ => (BitVec.ushiftRight_zero c).symm
  | succ n ih =>
    intro c h
    have hpass : crcShift c = c >>> 1 := if_neg (Bool.eq_false_iff.mp (h 0 (by omega)))
    rw [crcShifts, hpass, ih, Nat.add_comm, BitVec.shiftRight_add]
    intro i hi
    rw [BitVec.getLsbD_ushiftRight]
    exact h (1 + i) (by omega)

/-- Passes over the zero register leave it zero. -/
theorem crcShifts_zero (n : Nat) : crcShifts n 0#16 = 0#16 := by
  rw [crcShifts_of_low_zero n 0#16 (by simp), BitVec.zero_ushiftRight]

/-- A word is its upper byte and its lower byte. -/
theorem upper_xor_lower (c : Word) : (c >>> 8) <<< 8 ^^^ zext16 (lo c) = c := by
  apply BitVec.eq_of_getLsbD_eq
  intro i hi
  rw [BitVec.getLsbD_xor, BitVec.getLsbD_shiftLeft, BitVec.getLsbD_ushiftRight, zext16_getLsbD, lo,
    BitVec.getLsbD_extractLsb']
  by_cases h8 : i < 8
  · simp [h8]
  · simp [h8, hi, show 8 + (i - 8) = i by omega]

/-- Eight passes bring the upper byte down and leave the table's entry of the lower one (40_crc R70). -/
theorem crcShifts_eight (c : Word) : crcShifts 8 c = c >>> 8 ^^^ crcTable (lo c) := by
  have hlow : ∀ i < 8, ((c >>> 8) <<< 8).getLsbD i = false := fun i hi => by simp [hi]
  have hdown : (c >>> 8) <<< 8 >>> 8 = c >>> 8 := by
    apply BitVec.eq_of_getLsbD_eq
    intro i hi
    rw [BitVec.getLsbD_ushiftRight, BitVec.getLsbD_shiftLeft]
    by_cases h8 : i < 8
    · simp [show 8 + i < 16 by omega]
    · simp [show 16 ≤ 8 + i by omega]
  calc crcShifts 8 c = crcShifts 8 ((c >>> 8) <<< 8 ^^^ zext16 (lo c)) := by rw [upper_xor_lower]
    _ = c >>> 8 ^^^ crcTable (lo c) := by
      rw [crcShifts_xor, crcShifts_of_low_zero 8 _ hlow, hdown, crcTable, crcStep, BitVec.zero_xor]

/-- Settles O4: the byte enters the low half only, so the upper byte the passes bring down is the register's. -/
theorem crcStepEqualsTableForm : Obligations.CrcStepEqualsTableForm := by
  unfold Obligations.CrcStepEqualsTableForm
  intro c b
  rw [crcStep, crcShifts_eight, BitVec.ushiftRight_xor_distrib, zext16_shiftRight_eight, BitVec.xor_zero]

/-- One pass with data in the register takes the data's bit 0 in and shifts the rest on (40_crc R71). -/
theorem crcShift_xor_data (c x : Word) : crcShift (c ^^^ x) = crcBit c (x.getLsbD 0) ^^^ x >>> 1 := by
  rw [crcShift, crcBit, BitVec.getLsbD_xor, BitVec.ushiftRight_xor_distrib]
  cases (c.getLsbD 0).xor (x.getLsbD 0)
  · simp
  · simp only [if_true]
    ac_rfl

/-- `n` passes with data in the register take the data's low `n` bits in, from bit 0 up (40_crc R71). -/
theorem crcShifts_xor_data (n : Nat) : ∀ c x : Word, crcShifts n (c ^^^ x) =
    (List.range n).foldl (fun c i => crcBit c (x.getLsbD i)) c ^^^ x >>> n := by
  induction n with
  | zero => exact fun c x => by simp [crcShifts]
  | succ n ih =>
    intro c x
    rw [crcShifts, crcShift_xor_data, ih, List.range_succ_eq_map, List.foldl_cons, List.foldl_map,
      ← BitVec.shiftRight_add, Nat.add_comm 1 n]
    simp only [BitVec.getLsbD_ushiftRight, Nat.add_comm 1, Nat.succ_eq_add_one]

/-- Settles O5: the data is the byte, whose eight bits are all taken in. -/
theorem crcStepEqualsSerialForm : Obligations.CrcStepEqualsSerialForm := by
  unfold Obligations.CrcStepEqualsSerialForm
  intro c b
  rw [crcStep, crcShifts_xor_data, zext16_shiftRight_eight, BitVec.xor_zero, crcStepSerial]
  simp only [zext16_getLsbD]

/-- Settles O6: entering the byte is linear, and so is each pass. -/
theorem crcStepIsLinear : Obligations.CrcStepIsLinear := by
  unfold Obligations.CrcStepIsLinear
  intro c d a b
  rw [crcStep, crcStep, crcStep, ← crcShifts_xor, zext16_xor]
  congr 1
  ac_rfl

/-! ### Nothing is lost -/

/-- A pass that leaves zero was over zero: a tested 1 leaves bit 15 of 0xA001 behind (40_crc R65). -/
theorem eq_zero_of_crcShift {c : Word} (h : crcShift c = 0#16) : c = 0#16 := by
  rw [crcShift] at h
  split_ifs at h with h0
  · have htop : ((c >>> 1) ^^^ 0xA001#16).getLsbD 15 = true := by
      rw [BitVec.getLsbD_xor, BitVec.getLsbD_ushiftRight, BitVec.getLsbD_of_ge c _ (by omega)]
      decide
    rw [h] at htop
    exact absurd htop (by decide)
  · apply BitVec.eq_of_getLsbD_eq
    intro i hi
    rw [BitVec.getLsbD_zero]
    cases i with
    | zero => exact Bool.eq_false_iff.mpr h0
    | succ i =>
      have hbit : (c >>> 1).getLsbD i = false := by rw [h, BitVec.getLsbD_zero]
      rwa [BitVec.getLsbD_ushiftRight, Nat.add_comm] at hbit

theorem crcShift_injective : Function.Injective crcShift := fun c d h => by
  have hzero : crcShift (c ^^^ d) = 0#16 := by rw [crcShift_xor, h, BitVec.xor_self]
  exact BitVec.xor_eq_zero_iff.mp (eq_zero_of_crcShift hzero)

theorem crcShifts_injective (n : Nat) : Function.Injective (crcShifts n) := by
  induction n with
  | zero => exact fun _ _ h => h
  | succ n ih => exact ih.comp crcShift_injective

/-- For a fixed byte different registers stay different (40_crc section 4). -/
theorem crcStep_injective_register (b : Byte) : Function.Injective (fun c => crcStep c b) :=
  fun _ _ h => (BitVec.xor_left_inj _).mp (crcShifts_injective 8 h)

/-- For a fixed register different bytes give different registers (40_crc section 4). -/
theorem crcStep_injective_byte (c : Word) : Function.Injective (crcStep c) :=
  fun _ _ h => zext16_injective ((BitVec.xor_right_inj _).mp (crcShifts_injective 8 h))

/-- A byte sequence keeps different registers different. -/
theorem crcOver_injective (bs : List Byte) : Function.Injective (fun c => crcOver c bs) := by
  induction bs with
  | nil => exact fun _ _ h => h
  | cons b bs ih => exact ih.comp (crcStep_injective_register b)

/-- Settles O7: an injective map of the finite set of registers to itself is a bijection. -/
theorem crcStepLosesNothing : Obligations.CrcStepLosesNothing := by
  unfold Obligations.CrcStepLosesNothing
  exact ⟨fun b => (crcStep_injective_register b).bijective_of_finite, crcStep_injective_byte⟩

/-- A sequence with one byte changed leaves another register (40_crc section 5). -/
theorem crcOver_set_ne {b : Byte} : ∀ {f : List Byte} {i : Nat} (c : Word), i < f.length → f[i]? ≠ some b →
    crcOver c (f.set i b) ≠ crcOver c f := by
  intro f
  induction f with
  | nil => exact fun _ hi _ => absurd hi (Nat.not_lt_zero _)
  | cons x xs ih =>
    intro i c hi hne
    cases i with
    | zero =>
      have hx : b ≠ x := by simpa [eq_comm] using hne
      exact fun h => hx (crcStep_injective_byte c (crcOver_injective xs h))
    | succ i => exact ih (crcStep c x) (by simpa using hi) (by simpa using hne)

/-! ### The residue -/

/-- The low byte of the register, taken in, leaves the high one (40_crc section 5). -/
theorem crcStep_be (h l : Byte) : crcStep (be h l) l = zext16 h := by
  have hbits : ∀ i, (be h l ^^^ zext16 l).getLsbD i = if i < 8 then false else h.getLsbD (i - 8) := by
    intro i
    rw [BitVec.getLsbD_xor, be_getLsbD, zext16_getLsbD]
    split_ifs with h8
    · exact Bool.xor_self _
    · rw [BitVec.getLsbD_of_ge l i (by omega), Bool.xor_false]
  rw [crcStep, crcShifts_of_low_zero 8 _ fun i hi => (hbits i).trans (if_pos hi)]
  apply BitVec.eq_of_getLsbD_eq
  intro i hi
  rw [BitVec.getLsbD_ushiftRight, hbits, if_neg (by omega), Nat.add_sub_cancel_left, zext16_getLsbD]

/-- Two bytes bring a register to zero exactly when they are its low byte and then its high one. -/
theorem crcStep_crcStep_eq_zero_iff (c : Word) (l h : Byte) : crcStep (crcStep c l) h = 0#16 ↔ c = be h l := by
  have hown : crcStep (crcStep (be h l) l) h = 0#16 := by
    rw [crcStep_be, crcStep, BitVec.xor_self, crcShifts_zero]
  refine ⟨fun hz => ?_, fun hc => hc ▸ hown⟩
  exact crcStep_injective_register l (crcStep_injective_register h (hz.trans hown.symm))

/-- A frame of two bytes or more is its body and the two bytes of its trailer, the low one first. -/
theorem eq_frameBody_append {f : List Byte} (h : 2 ≤ f.length) :
    f = frameBody f ++ [f.getD (f.length - 2) 0#8, f.getD (f.length - 1) 0#8] := by
  have hdrop : f.drop (f.length - 2) = [f.getD (f.length - 2) 0#8, f.getD (f.length - 1) 0#8] := by
    rw [List.drop_eq_getElem_cons (by omega), List.drop_eq_getElem_cons (by omega), List.drop_of_length_le (by omega),
      List.getD_eq_getElem _ _ (by omega), List.getD_eq_getElem _ _ (by omega)]
    simp only [show f.length - 2 + 1 = f.length - 1 by omega]
  rw [frameBody, ← hdrop, List.take_append_drop]

/-- The trailer matches exactly when the CRC over the whole frame is zero (40_crc section 5). -/
theorem crcMatches_iff {f : List Byte} (h : 2 ≤ f.length) : crcMatches f = true ↔ crc16 f = 0x0000#16 := by
  have hwhole : crc16 f = crcStep (crcStep (crc16 (frameBody f)) (f.getD (f.length - 2) 0#8))
      (f.getD (f.length - 1) 0#8) := by
    conv_lhs => rw [eq_frameBody_append h, crc16, crcOver_append]
    rfl
  rw [hwhole, crcStep_crcStep_eq_zero_iff, crcMatches, beq_iff_eq, frameTrailer]

/-- Settles O9: the trailer's two bytes bring the body's CRC to zero exactly when they are that CRC. -/
theorem trailerMatchesIffResidueZero : Obligations.TrailerMatchesIffResidueZero := by
  unfold Obligations.TrailerMatchesIffResidueZero
  exact fun _ h => crcMatches_iff h

/-! ### The CRC commands -/

/-- CRC_BYTE is accepted in every state and takes CRC one step on (40_crc R69). -/
theorem exec_crcByte (b : Byte) (s : State) : exec (.crcByte b) s = .next { s with crc := crcStep s.crc b } := rfl

/-- One CRC_BYTE per byte takes CRC over the bytes and leaves all else alone (40_crc section 2). -/
theorem runCommands_crcBytes (bs : List Byte) : ∀ s : State,
    runCommands (bs.map .crcByte) s = some { s with crc := crcOver s.crc bs } := by
  induction bs with
  | nil => exact fun _ => rfl
  | cons b bs ih => exact fun s => ih { s with crc := crcStep s.crc b }

/-- Settles O2: CRC_BYTE's equation, its word as the opcode's plus the byte, and the worked value. -/
theorem crcByteStepsRegister : Obligations.CrcByteStepsRegister := by
  unfold Obligations.CrcByteStepsRegister
  refine ⟨exec_crcByte, fun b => ?word, fun s t hcrc h => ?value⟩
  case word =>
    have hword : 0x0100#16 + b.setWidth 16 = commandWord 1#3 b := (commandWord_eq_add 1#3 b).symm
    rw [hword, decodeCommand_commandWord]
    rfl
  case value =>
    obtain rfl := Host.Outcome.next.inj ((exec_crcByte 0x01#8 s).symm.trans h)
    show crcStep s.crc 0x01#8 = 0x807E#16
    rw [hcrc]
    decide

/-- Settles O3: computed. -/
theorem crcKnownValues : Obligations.CrcKnownValues := by
  unfold Obligations.CrcKnownValues
  decide +kernel

/-- Settles O8: the bytes take CRC over themselves, from the value CRC_INIT leaves or from the same value found. -/
theorem streamedBytesGiveCrc16 : Obligations.StreamedBytesGiveCrc16 := by
  unfold Obligations.StreamedBytesGiveCrc16
  refine ⟨fun imm bs s => runCommands_crcBytes bs { s with crc := 0xFFFF#16 }, fun bs s hcrc => ?_⟩
  rw [runCommands_crcBytes, hcrc]
  rfl

end Sys2Proof.Machine
end

section
/-! SUPPORT. ENC_WRN and the request rows (spec 41_encode section 2, 30_encoding R46 to R48): when each is accepted,
the body it builds, and the obligations made of them. -/

namespace Sys2Proof.Machine

/-- The body of RQ_WRN, byte by byte (30_encoding R48). -/
theorem bodyRqWrn_eq (a : Byte) (start : Word) (data : List Word) :
    bodyRqWrn a start data = [a, 0x10#8, hi start, lo start, hi (BitVec.ofNat 16 data.length),
      lo (BitVec.ofNat 16 data.length), BitVec.ofNat 8 (2 * data.length)] ++
        data.flatMap (fun w => [hi w, lo w]) := by
  rw [bodyRqWrn, bytesOfWords_eq_flatMap]
  rfl

/-- The body of RQ_WRN with its word count in a register, as ENC_WRN has it in ARG (41_encode R79). -/
theorem bodyRqWrn_eq_of_count {data : List Word} {n : Word} (h : data.length = n.toNat) (a : Byte) (start : Word) :
    bodyRqWrn a start data = [a, 0x10#8, hi start, lo start, hi n, lo n, BitVec.ofNat 8 (2 * n.toNat)] ++
      data.flatMap (fun w => [hi w, lo w]) := by
  rw [bodyRqWrn_eq, h, BitVec.ofNat_toNat, BitVec.setWidth_eq]

/-- ENC_WRN with the function present and an admitted word count is accepted (41_encode R79). -/
theorem exec_encWrn_accepted (imm : Byte) {s : State} (hf : s.params.hasFc10 = true) (h1 : 1 ≤ s.arg.toNat)
    (hmax : s.arg.toNat ≤ s.params.wmax) :
    exec (.encWrn imm) s = .next (buildFrame (bodyRqWrn s.slave s.addr (wdataWords s s.arg.toNat))
      (drawValues (wdataDraws s s.arg.toNat) s)) := by
  show execEncWrn imm s = _
  rw [execEncWrn, if_neg (by simp [hf]), if_neg (by omega)]

/-- ENC_WRN without the function is refused (41_encode R79). -/
theorem exec_encWrn_absent (imm : Byte) {s : State} (hf : s.params.hasFc10 = false) :
    exec (.encWrn imm) s = .refused .fc10Absent := if_pos hf

/-- ENC_WRN with ARG 0 or above WMAX is refused (41_encode R79). -/
theorem exec_encWrn_wordCount (imm : Byte) {s : State} (hf : s.params.hasFc10 = true)
    (h : s.arg.toNat = 0 ∨ s.params.wmax < s.arg.toNat) : exec (.encWrn imm) s = .refused .wordCount := by
  show execEncWrn imm s = _
  rw [execEncWrn, if_neg (by simp [hf]), if_pos h]

/-- A word the host wrote stands among the words ENC_WRN reads, as written (41_encode R79). -/
theorem wdataWords_getElem?_written {s : State} {n i : Nat} (hi : i < n) {w : Word} (h : memFind s.wdata i = some w) :
    (wdataWords s n)[i]? = some w := by
  rw [wdataWords_getElem? s n i hi, wdataAt_written h]

/-- Settles O12: the body is that of the words read, which are the words written wherever one was; the two refusals
are turned away at the bus. -/
theorem encWrnBuildsRequestOrRefuses : Obligations.EncWrnBuildsRequestOrRefuses := by
  unfold Obligations.EncWrnBuildsRequestOrRefuses
  refine ⟨fun imm s data hf h1 hmax hlen hdata => ?written, fun imm s hf h1 hmax => ?accepted,
    fun imm s => exec_encWrn_absent imm, fun imm s => exec_encWrn_wordCount imm, fun imm s h => ?refused,
    decodeCommand_commandWord 4#3 0x00#8, by decide +kernel⟩
  case written =>
    obtain ⟨hwords, hdraws⟩ := wdataWords_written s data hdata
    have hx := exec_encWrn_accepted imm hf h1 hmax
    rw [← hlen, hwords, hdraws] at hx
    refine ⟨_, hx, ?_, ?_⟩
    · rw [buildFrame_txlen, bodyRqWrn_frame_length, hlen]
    · rw [bodyRqWrn_eq_of_count hlen]
      exact buildFrame_builds _ s
  case accepted =>
    refine ⟨wdataWords s s.arg.toNat, _, exec_encWrn_accepted imm hf h1 hmax, ?_, wdataWords_length _ _,
      fun i hi w hw => wdataWords_getElem?_written hi hw, ?_⟩
    · rw [buildFrame_txlen, bodyRqWrn_frame_length, wdataWords_length]
    · rw [bodyRqWrn_eq_of_count (wdataWords_length _ _)]
      exact buildFrame_builds _ (drawValues _ s)
  case refused =>
    by_cases hf : s.params.hasFc10 = false
    · exact ⟨_, serveCommand_refused (op := 4#3) (exec_encWrn_absent imm hf)⟩
    · have hcount := h.resolve_left hf
      exact ⟨_, serveCommand_refused (op := 4#3) (exec_encWrn_wordCount imm (by simpa using hf) hcount)⟩

/-- Settles O14: what the host reads out of TXBUF is the body built under its trailer, and that is the row's
encoding. -/
theorem encodersWriteTheEncodedRow : Obligations.EncodersWriteTheEncodedRow := by
  unfold Obligations.EncodersWriteTheEncodedRow
  refine ⟨fun imm s t h => ?read, fun imm s t h => ?wr1, fun imm s t h => ?wrn⟩
  case read =>
    obtain rfl := Host.Outcome.next.inj ((exec_encRead imm s).symm.trans h)
    rw [txFrame_buildFrame, encode]
  case wr1 =>
    obtain rfl := Host.Outcome.next.inj ((exec_encWr1 imm s).symm.trans h)
    rw [txFrame_buildFrame, encode]
  case wrn =>
    obtain ⟨r, hrefused⟩ | ⟨-, -, -, hbuilt⟩ := execEncWrn_cases imm s
    · rw [hrefused] at h
      cases h
    · obtain rfl := Host.Outcome.next.inj (hbuilt.symm.trans h)
      refine ⟨wdataWords s s.arg.toNat, wdataWords_length _ _, fun i hi w hw => wdataWords_getElem?_written hi hw, ?_⟩
      rw [txFrame_buildFrame, encode]

/-- Settles O15: a request row builds its own body; RQ_WRN has ENC_WRN's refusals. -/
theorem requestRowsBuildTheirFrame : Obligations.RequestRowsBuildTheirFrame := by
  unfold Obligations.RequestRowsBuildTheirFrame
  refine ⟨fun a st c s => ⟨_, rfl, buildFrame_builds (bodyRqRead a st c) s⟩,
    fun a r v s => ⟨_, rfl, buildFrame_builds (bodyRqWr1 a r v) s⟩, fun a st data s hf h1 hmax => ?accepted,
    fun a st data s hf => if_pos hf, fun a st data s hf h => ?refused⟩
  case accepted =>
    refine ⟨_, exec_rqWrn_accepted a st hf h1 hmax, ?_⟩
    rw [bodyRqWrn_eq]
    exact buildFrame_builds _ s
  case refused =>
    show execRqWrn a st data s = _
    rw [execRqWrn, if_neg (by simp [hf]), if_pos h]

end Sys2Proof.Machine
end

section
/-! SUPPORT. The outcomes of DEC (spec 42_decode sections 2 and 3, 60_exceptions section 1): the five steps, each
error's next state, and what an outcome depends on, changes and keeps. -/

namespace Sys2Proof.Machine

/-! ### Step by step -/

/-- An admitted DEC does the rule's five steps on offsets of RXBUF (42_decode R90). -/
theorem execDec_decSpec {e : Byte} {s : State} (ha : admitted s.params e) :
    exec (.dec e) s = .next (decSpec e s) := by
  rw [execDec_admitted e s ha, decFrame_eq_decSpec]

/-- A frame with a good CRC comes to steps 3 to 5, with the computed CRC in CRC (42_decode R90). -/
theorem execDec_bodySpec {e : Byte} {s : State} (ha : admitted s.params e) (h5 : 5 ≤ s.rxlen)
    (hcrc : rxCrc s = be (rxByteAt s (s.rxlen - 1)) (rxByteAt s (s.rxlen - 2))) :
    exec (.dec e) s = .next (bodySpec e (setCrc (rxCrc s) s)) := by
  rw [execDec_decSpec ha, decSpec, if_neg (by omega), if_neg (not_not.mpr hcrc)]
  rfl

/-- Settles O19: the meaning over byte lists is the pseudocode on offsets. -/
theorem decFollowsTheFiveSteps : Obligations.DecFollowsTheFiveSteps := by
  unfold Obligations.DecFollowsTheFiveSteps
  exact fun _ _ => execDec_decSpec

/-- Settles O20: step 1. -/
theorem decShortRead : Obligations.DecShortRead := by
  unfold Obligations.DecShortRead
  intro e s ha hlen
  rw [execDec_decSpec ha, decSpec, if_pos hlen]
  rfl

/-- Settles O21: step 2. -/
theorem decCrcMismatch : Obligations.DecCrcMismatch := by
  unfold Obligations.DecCrcMismatch
  intro e s ha h5 hbad
  rw [execDec_decSpec ha, decSpec, if_neg (by omega), if_pos hbad]
  rfl

/-- Settles O22: step 3. -/
theorem decExceptionResponse : Obligations.DecExceptionResponse := by
  unfold Obligations.DecExceptionResponse
  intro e s ha h5 hcrc hbit
  rw [execDec_bodySpec ha h5 hcrc, bodySpec, rxByteAt_setCrc, if_pos hbit]
  rfl

/-- Settles O23: step 4. -/
theorem decUnexpectedFunctionCode : Obligations.DecUnexpectedFunctionCode := by
  unfold Obligations.DecUnexpectedFunctionCode
  intro e s ha h5 hcrc hbit hcode
  rw [execDec_bodySpec ha h5 hcrc, bodySpec, rxByteAt_setCrc, if_neg (Bool.eq_false_iff.mp hbit), if_pos hcode]
  rfl

/-- Step 5 ends in OK or in MalformedFrame (42_decode R93, R94). -/
theorem payload_status (e : Byte) (s : State) :
    (if e = 0x03#8 then readSpec s else writeSpec s).status = .ok ∨
    (if e = 0x03#8 then readSpec s else writeSpec s).status = .malformedFrame := by
  rw [readSpec, writeSpec]
  split_ifs
  · exact .inr rfl
  · exact .inr rfl
  · exact .inl rfl
  · exact .inr rfl
  · exact .inl rfl

/-- The three cases of byte 1 after a good CRC; they exclude each other, the expected code having bit 7 clear
(30_encoding R54, 42_decode R90). -/
theorem bodySpec_status_cases (s : State) {e : Byte} (h7 : e.getLsbD 7 = false) :
    ((rxByteAt s 1).getLsbD 7 = true ∧ rxByteAt s 1 ≠ e ∧ (bodySpec e s).status = .exceptionResponse) ∨
    ((rxByteAt s 1).getLsbD 7 = false ∧ rxByteAt s 1 ≠ e ∧ (bodySpec e s).status = .unexpectedFunctionCode) ∨
    ((rxByteAt s 1).getLsbD 7 = false ∧ rxByteAt s 1 = e ∧
      ((bodySpec e s).status = .ok ∨ (bodySpec e s).status = .malformedFrame)) := by
  rw [bodySpec]
  by_cases hbit : (rxByteAt s 1).getLsbD 7 = true
  · have hne : rxByteAt s 1 ≠ e := fun heq => Bool.eq_false_iff.mp h7 (heq ▸ hbit)
    rw [if_pos hbit]
    exact .inl ⟨hbit, hne, rfl⟩
  have hclear := Bool.eq_false_iff.mpr hbit
  rw [if_neg hbit]
  by_cases hcode : rxByteAt s 1 = e
  · rw [if_neg (not_not.mpr hcode)]
    exact .inr (.inr ⟨hclear, hcode, payload_status e s⟩)
  · rw [if_pos hcode]
    exact .inr (.inl ⟨hclear, hcode, rfl⟩)

/-- Settles O30: each of the three cases of byte 1 answers all three equivalences. -/
theorem functionCodeDispatch : Obligations.FunctionCodeDispatch := by
  unfold Obligations.FunctionCodeDispatch
  intro e s t h5 hcrc h
  obtain ⟨ha, -⟩ := execDec_next e s t h
  obtain rfl := Host.Outcome.next.inj ((execDec_bodySpec ha h5 hcrc).symm.trans h)
  obtain ⟨hbit, hne, hst⟩ | ⟨hbit, hne, hst⟩ | ⟨hbit, heq, hst⟩ :=
    bodySpec_status_cases (setCrc (rxCrc s) s) (admitted_bit7 ha)
  · rw [hst]
    exact ⟨iff_of_true rfl hbit, iff_of_false nofun fun h => Bool.eq_false_iff.mp h.1 hbit,
      iff_of_false (by simp) hne⟩
  · rw [hst]
    exact ⟨iff_of_false nofun (Bool.eq_false_iff.mp hbit), iff_of_true rfl ⟨hbit, hne⟩, iff_of_false (by simp) hne⟩
  · have hnone : (bodySpec e (setCrc (rxCrc s) s)).status ≠ .exceptionResponse ∧
        (bodySpec e (setCrc (rxCrc s) s)).status ≠ .unexpectedFunctionCode := by
      obtain hst | hst := hst <;> rw [hst] <;> exact ⟨nofun, nofun⟩
    exact ⟨iff_of_false hnone.1 (Bool.eq_false_iff.mp hbit), iff_of_false hnone.2 fun h => h.2 heq,
      iff_of_true hst heq⟩

/-! ### The outcome as a function of the bytes -/

/-- The bytes decide whether DEC raises an error or delivers words, and which, whatever the state; no payload has
more words than a byte count of one byte can say (42_decode R85, R93). -/
theorem conclude_decodeResponse_cases (e : Byte) (f : List Byte) :
    (∃ err, decodeResult e f = .error err ∧ ∀ s, conclude (decodeResponse e f) s = raiseError err s) ∨
    (∃ ws, decodeResult e f = .ok ws ∧ ws.length ≤ 127 ∧
      ∀ s, conclude (decodeResponse e f) s = deliver ws s) := by
  rw [decodeResult]
  cases h : decodeResponse e f with
  | error err => exact .inl ⟨err, rfl, fun _ => rfl⟩
  | ok r =>
    cases r with
    | read a ws => exact .inr ⟨ws, rfl, (decodeResponse_read h).1, fun _ => rfl⟩
    | wr1 a reg val => exact .inr ⟨[reg, val], rfl, by simp, fun _ => rfl⟩
    | wrn a start n => exact .inr ⟨[start, n], rfl, by simp, fun _ => rfl⟩
    | exc a fc code rest => exact .inl ⟨.exceptionResponse code, rfl, fun _ => rfl⟩

/-- DEC raises the error, or delivers the words, that the received bytes decide, on CRC as step 2 left it. -/
theorem decFrame_outcome (e : Byte) (s : State) :
    (∃ err, decodeResult e (rxFrame s) = .error err ∧ decFrame e s = raiseError err (decCrc s)) ∨
    (∃ ws, decodeResult e (rxFrame s) = .ok ws ∧ ws.length ≤ 127 ∧ decFrame e s = deliver ws (decCrc s)) := by
  rw [decFrame_eq_conclude]
  obtain ⟨err, hres, hc⟩ | ⟨ws, hres, hlen, hc⟩ := conclude_decodeResponse_cases e (rxFrame s)
  · exact .inl ⟨err, hres, hc _⟩
  · exact .inr ⟨ws, hres, hlen, hc _⟩

/-- The number of words delivered fits PCOUNT where a byte count can say it (10_state R20). -/
theorem deliver_pcount_toNat {ws : List Word} (h : ws.length ≤ 127) (s : State) :
    (deliver ws s).pcount.toNat = ws.length := by
  rw [deliver_pcount, BitVec.toNat_ofNat, Nat.mod_eq_of_lt (by omega)]

/-- What PWORD holds after words were delivered: the words, and beyond them what it held (42_decode R93). -/
theorem memFind_deliver_pword (ws : List Word) (s : State) (i : Nat) :
    memFind (deliver ws s).pword i = if i < ws.length then ws[i]? else memFind s.pword i := by
  rw [deliver_pword, memFind_memWriteAll]
  simp only [Nat.zero_le, true_and, Nat.zero_add, Nat.sub_zero]

/-- Words delivered are reported (10_state R18 to R21). -/
theorem deliver_reports {ws : List Word} (h : ws.length ≤ 127) (s : State) : Reports (.ok ws) (deliver ws s) :=
  ⟨rfl, rfl, deliver_pcount_toNat h s, fun i hi => by rw [memFind_deliver_pword, if_pos hi]⟩

/-- Beyond the words delivered PWORD is as it was. -/
theorem memFind_deliver_beyond {ws : List Word} {i : Nat} (h : ws.length ≤ i) (s : State) :
    memFind (deliver ws s).pword i = memFind s.pword i := by
  rw [memFind_deliver_pword, if_neg (by omega)]

/-- DEC's results are what `decode_response` returned of the received bytes (42_decode, opening paragraph). -/
theorem decFrame_reports (e : Byte) (s : State) : Reports (decodeResult e (rxFrame s)) (decFrame e s) := by
  obtain ⟨err, hres, hf⟩ | ⟨ws, hres, hlen, hf⟩ := decFrame_outcome e s <;> rw [hres, hf]
  · exact ⟨rfl, rfl, rfl⟩
  · exact deliver_reports hlen _

/-! ### What DEC changes -/

/-- DEC writes the result registers and CRC only (42_decode section 1). -/
theorem decFrame_frame (e : Byte) (s : State) :
    { decFrame e s with status := s.status, exc := s.exc, pcount := s.pcount, crc := s.crc, pword := s.pword } =
      s := by
  obtain ⟨c, hc⟩ := decCrc_eq_setCrc s
  obtain ⟨err, -, hf⟩ | ⟨ws, -, -, hf⟩ := decFrame_outcome e s <;> rw [hf, hc] <;> rfl

theorem rxlen_decFrame (e : Byte) (s : State) : (decFrame e s).rxlen = s.rxlen :=
  (congrArg State.rxlen (decFrame_frame e s) :)

theorem rxbuf_decFrame (e : Byte) (s : State) : (decFrame e s).rxbuf = s.rxbuf :=
  (congrArg State.rxbuf (decFrame_frame e s) :)

/-- DEC leaves the received frame as it was (42_decode R90). -/
theorem rxFrame_decFrame (e : Byte) (s : State) : rxFrame (decFrame e s) = rxFrame s :=
  rxFrame_congr (rxlen_decFrame e s) fun i _ => by rw [rxByteAt, rxByteAt, rxbuf_decFrame]

theorem params_decFrame (e : Byte) (s : State) : (decFrame e s).params = s.params :=
  (congrArg State.params (decFrame_frame e s) :)

/-- Beyond PCOUNT DEC leaves PWORD as it was (42_decode R93). -/
theorem memFind_decFrame_beyond (e : Byte) {s : State} {i : Nat} (h : (decFrame e s).pcount.toNat ≤ i) :
    memFind (decFrame e s).pword i = memFind s.pword i := by
  obtain ⟨c, hc⟩ := decCrc_eq_setCrc s
  obtain ⟨err, -, hf⟩ | ⟨ws, -, hlen, hf⟩ := decFrame_outcome e s <;> rw [hf] at h ⊢
  · rw [raiseError_pword, hc, setCrc_pword]
  · rw [deliver_pcount_toNat hlen] at h
    rw [memFind_deliver_beyond h, hc, setCrc_pword]

/-- Settles O28: DEC's frame, and PWORD beyond the words delivered. -/
theorem decChangesResultsOnly : Obligations.DecChangesResultsOnly := by
  unfold Obligations.DecChangesResultsOnly
  intro e s t h
  obtain ⟨-, rfl⟩ := execDec_next e s t h
  exact ⟨decFrame_frame e s, fun i => memFind_decFrame_beyond e⟩

/-- Settles O29: the received bytes decide the outcome, and the results of an outcome do not depend on the state
it meets. -/
theorem decDependsOnReceivedBytesOnly : Obligations.DecDependsOnReceivedBytesOnly := by
  unfold Obligations.DecDependsOnReceivedBytesOnly
  intro e s s' t ⟨hlen, hbytes, hfc10⟩ h
  obtain ⟨ha, rfl⟩ := execDec_next e s t h
  have ha' : admitted s'.params e := by rwa [admitted, ← hfc10]
  refine ⟨_, execDec_admitted e s' ha', ?_⟩
  rw [decFrame_eq_conclude, decFrame_eq_conclude, ← rxFrame_congr hlen hbytes]
  obtain ⟨err, -, hc⟩ | ⟨ws, -, hws, hc⟩ := conclude_decodeResponse_cases e (rxFrame s) <;>
    simp only [hc (decCrc s), hc (decCrc s')]
  · exact ⟨rfl, rfl, rfl, fun i hi => absurd hi (Nat.not_lt_zero i)⟩
  · refine ⟨rfl, rfl, rfl, fun i hi => ?_⟩
    rw [deliver_pcount_toNat hws] at hi
    rw [memFind_deliver_pword, memFind_deliver_pword, if_pos hi, if_pos hi]

/-! ### DEC again -/

/-- Step 2 on what a DEC left writes to CRC what stands there: the received frame is the same. -/
theorem decCrc_decFrame (e : Byte) (s : State) : decCrc (decFrame e s) = decFrame e s := by
  by_cases h5 : s.rxlen < 5
  · rw [decCrc_short _ (by rwa [rxlen_decFrame])]
  have hcrc : (decFrame e s).crc = crc16 (frameBody (rxFrame (decFrame e s))) := by
    rw [rxFrame_decFrame]
    have hstep : (decCrc s).crc = crc16 (frameBody (rxFrame s)) := by rw [decCrc, if_neg h5, setCrc_crc]
    obtain ⟨err, -, hf⟩ | ⟨ws, -, -, hf⟩ := decFrame_outcome e s <;> rw [hf]
    · exact hstep
    · exact hstep
  rw [decCrc, if_neg (by rwa [rxlen_decFrame]), ← hcrc]
  rfl

/-- The same DEC again leaves every field as it found it, PWORD by value (42_decode section 3). -/
theorem decFrame_decFrame (e : Byte) (s : State) :
    { decFrame e (decFrame e s) with pword := (decFrame e s).pword } = decFrame e s ∧
    ∀ i, memFind (decFrame e (decFrame e s)).pword i = memFind (decFrame e s).pword i := by
  rw [decFrame_eq_conclude e (decFrame e s), rxFrame_decFrame, decCrc_decFrame, decFrame_eq_conclude e s]
  obtain ⟨err, -, hc⟩ | ⟨ws, -, hlen, hc⟩ := conclude_decodeResponse_cases e (rxFrame s) <;> simp only [hc]
  · exact ⟨rfl, fun _ => rfl⟩
  · refine ⟨rfl, fun i => ?_⟩
    rw [memFind_deliver_pword]
    split_ifs with hi
    · rw [memFind_deliver_pword, if_pos hi]
    · rfl

/-- DEC does not end in NONE (42_decode section 3). -/
theorem decFrame_status_ne_none (e : Byte) (s : State) : (decFrame e s).status ≠ .none := by
  obtain ⟨err, -, hf⟩ | ⟨ws, -, -, hf⟩ := decFrame_outcome e s <;> rw [hf]
  · exact errorStatus_ne_none err
  · exact nofun

/-- Settles O27: the code stays admitted, and the received frame and CRC are what the second DEC would make them. -/
theorem decIsTotalAndRepeatable : Obligations.DecIsTotalAndRepeatable := by
  unfold Obligations.DecIsTotalAndRepeatable
  intro e s ha
  have ha' : admitted (decFrame e s).params e := by rwa [params_decFrame]
  exact ⟨_, execDec_admitted e s ha, decFrame_status_ne_none e s, _, execDec_admitted e _ ha',
    decFrame_decFrame e s⟩

end Sys2Proof.Machine
end

section
/-! SUPPORT. The response rows as instructions (spec 30_encoding R49 to R52; log 12) and DEC over the bytes of one. -/

namespace Sys2Proof.Machine

/-- The words of a response that fits are no more than its byte count can say (20_memory R37). -/
theorem length_le_of_responseFits {p : Params} {r : Response} (h : responseFits p r) :
    ∀ a ws, r = .read a ws → ws.length ≤ 127 := by
  rintro a ws rfl
  exact le_trans h (pmax_le p)

/-- The function code byte of an exception response is the request's code with bit 7 set (30_encoding R52). -/
theorem excCode_eq (fc : BitVec 7) : (1#1 ++ fc : Byte) = fc.setWidth 8 ||| 0x80#8 := by
  revert fc
  decide

/-- The effect of a payload row: CRC over its body, its words reported, nothing else changed (42_decode R90). -/
theorem deliver_setCrc_effect {ws : List Word} (h : ws.length ≤ 127) (c : Word) (s : State) :
    (deliver ws (setCrc c s)).crc = c ∧ Reports (.ok ws) (deliver ws (setCrc c s)) ∧
    (∀ i, ws.length ≤ i → memFind (deliver ws (setCrc c s)).pword i = memFind s.pword i) ∧
    { deliver ws (setCrc c s) with
      crc := s.crc, status := s.status, exc := s.exc, pcount := s.pcount, pword := s.pword } = s :=
  ⟨rfl, deliver_reports h _, fun _ hi => memFind_deliver_beyond hi _, rfl⟩

/-- Settles O31: a row that fits takes its response, whose effect is a payload's or the device's error; one that
does not fit fails the test that refuses it. -/
theorem responseRowsHaveTheirEffect : Obligations.ResponseRowsHaveTheirEffect := by
  unfold Obligations.ResponseRowsHaveTheirEffect
  refine ⟨fun a ws s h => ?read, fun a r v s => ⟨_, rfl, deliver_setCrc_effect (ws := [r, v]) (by simp) _ s⟩,
    fun a st n s h => ?wrn, fun a fc code rest s h => ?exc, fun a ws s h => if_pos h, fun a st n s h => if_pos h,
    fun a fc code rest s h => if_pos h⟩
  case read =>
    have hbody : bodyRsRead a ws =
        [a, 0x03#8, BitVec.ofNat 8 (2 * ws.length)] ++ ws.flatMap (fun w => [hi w, lo w]) := by
      rw [bodyRsRead, bytesOfWords_eq_flatMap]
      rfl
    refine ⟨_, exec_toInstr (r := .read a ws) h, ?_⟩
    rw [← hbody]
    exact deliver_setCrc_effect (le_trans h (pmax_le s.params)) _ s
  case wrn =>
    exact ⟨_, exec_toInstr (r := .wrn a st n) h, deliver_setCrc_effect (ws := [st, n]) (by simp) _ s⟩
  case exc =>
    rw [← excCode_eq]
    exact exec_toInstr (r := .exc a fc code rest) h

/-- Settles O32: DEC reads the frame back as its row, and step 2 computes the CRC of the row's body. -/
theorem decRunsTheFrameItFinds : Obligations.DecRunsTheFrameItFinds := by
  unfold Obligations.DecRunsTheFrameItFinds
  intro r e s ha hu hfits hframe
  have hlen : s.rxlen = r.body.length + 2 := by rw [← rxFrame_length, hframe, withTrailer_length]
  have hthree := three_le_body_length r
  have hread : decodeResponse e (rxFrame s) = .ok r := by
    rw [hframe, decodeResponse_body hu (length_le_of_responseFits hfits)]
  have hcrc : decCrc s = setCrc (crc16 r.body) s := by
    rw [decCrc, if_neg (by omega), hframe, frameBody_withTrailer]
  rw [execDec_admitted e s ha, decFrame_eq_conclude, hread, hcrc, exec_toInstr hfits]
  rfl

end Sys2Proof.Machine
end

section
/-! SUPPORT. What the CRC check catches (spec 40_crc section 5, 70_reset_and_hazards section 3): one byte changed, and
two frames end to end. -/

namespace Sys2Proof.Machine

/-- A received frame of 5 bytes or more whose residue is not zero is CrcMismatch (42_decode R90 step 2). -/
theorem execDec_residue {e : Byte} {s : State} (ha : admitted s.params e) (h5 : 5 ≤ (rxFrame s).length)
    (hres : crc16 (rxFrame s) ≠ 0x0000#16) :
    exec (.dec e) s = .next (raiseError .crcMismatch (decCrc s)) := by
  have hbad : ¬ crcMatches (rxFrame s) = true := mt (crcMatches_iff (by omega)).mp hres
  rw [execDec_admitted e s ha, decFrame_eq_conclude, decodeResponse, if_neg (by omega), if_neg hbad, conclude_error]

/-- Settles O33: a changed byte changes the residue, which was zero. -/
theorem singleByteCorruptionIsDetected : Obligations.SingleByteCorruptionIsDetected := by
  unfold Obligations.SingleByteCorruptionIsDetected
  intro e s f i b ha h5 hgood hi hne hframe
  have hzero : crc16 f = 0x0000#16 := (crcMatches_iff (by omega)).mp hgood
  have hres : crc16 (rxFrame s) ≠ 0x0000#16 := by
    rw [hframe, ← hzero]
    exact crcOver_set_ne crcStart hi hne
  exact ⟨_, execDec_residue ha (by rwa [hframe, List.length_set]) hres, rfl, rfl, rfl⟩

/-- Settles O34: after the first frame the register is zero, not the seed, so the second does not bring it to zero
again. -/
theorem staleFrameIsDetected : Obligations.StaleFrameIsDetected := by
  unfold Obligations.StaleFrameIsDetected
  intro e s f g ha hf5 hg5 hf hg hframe
  have hfzero : crc16 f = 0x0000#16 := (crcMatches_iff (by omega)).mp hf
  have hgzero : crc16 g = 0x0000#16 := (crcMatches_iff (by omega)).mp hg
  have hres : crc16 (rxFrame s) ≠ 0x0000#16 := by
    intro h
    rw [hframe, crc16, crcOver_append, show crcOver crcStart f = 0x0000#16 from hfzero] at h
    exact absurd (crcOver_injective g (h.trans hgzero.symm)) (by decide)
  exact ⟨_, execDec_residue ha (by rw [hframe, List.length_append]; omega) hres, rfl⟩

end Sys2Proof.Machine
end

section
/-! SUPPORT. Commands one after another (spec 42_decode, opening paragraph): a frame received and decoded. -/

namespace Sys2Proof.Machine

theorem runCommands_append (xs ys : List Instr) : ∀ {s t : State}, runCommands xs s = some t →
    runCommands (xs ++ ys) s = runCommands ys t := by
  induction xs with
  | nil =>
    intro s t h
    obtain rfl := Option.some.inj h
    rfl
  | cons x xs ih =>
    intro s t h
    rw [List.cons_append, runCommands]
    rw [runCommands] at h
    cases hx : exec x s with
    | next u =>
      rw [hx] at h
      exact ih h
    | fault f => cases f
    | refused r =>
      rw [hx] at h
      cases h

/-- RX_BYTE for each byte of a sequence that fits puts them after the bytes already there (42_decode R87). -/
theorem runCommands_rxBytes (bs : List Byte) : ∀ s : State, s.rxlen + bs.length ≤ s.params.frameMax →
    runCommands (bs.map .rxByte) s =
      some { s with rxbuf := memWriteAll s.rxbuf s.rxlen bs, rxlen := s.rxlen + bs.length } := by
  induction bs with
  | nil => exact fun _ _ => rfl
  | cons b bs ih =>
    intro s h
    rw [List.length_cons] at h
    rw [List.map_cons, runCommands, exec_rxByte_room b s (by omega)]
    show runCommands (bs.map .rxByte) { s with rxbuf := memWrite s.rxbuf s.rxlen b, rxlen := s.rxlen + 1 } = _
    rw [ih _ (show s.rxlen + 1 + bs.length ≤ s.params.frameMax by omega), List.length_cons,
      Nat.add_assoc, Nat.add_comm 1]
    rfl

/-- Settles O35: the bytes loaded are the frame DEC takes apart, and DEC reports what they decode to. -/
theorem commandsImplementDecodeResponse : Obligations.CommandsImplementDecodeResponse := by
  unfold Obligations.CommandsImplementDecodeResponse
  intro e s bs ha hlen
  have hload : runCommands (bs.map .rxByte) { s with rxlen := 0 } = some (loadFrame bs s) := by
    rw [runCommands_rxBytes bs _ (show 0 + bs.length ≤ s.params.frameMax by omega), Nat.zero_add]
    rfl
  have hrun : runCommands (.rxClear 0x00#8 :: (bs.map .rxByte ++ [.dec e])) s =
      some (decFrame e (loadFrame bs s)) := by
    show runCommands (bs.map .rxByte ++ [.dec e]) { s with rxlen := 0 } = _
    rw [runCommands_append _ _ hload, runCommands, execDec_admitted e (loadFrame bs s) ha]
    rfl
  have hframe := rxFrame_loadFrame bs s
  have hreports := decFrame_reports e (loadFrame bs s)
  rw [hframe] at hreports
  have hkept := decFrame_frame e (loadFrame bs s)
  refine ⟨_, hrun, by rw [rxFrame_decFrame, hframe], hreports, ?_⟩
  exact ⟨(congrArg State.slave hkept :), (congrArg State.addr hkept :), (congrArg State.arg hkept :),
    (congrArg State.wdata hkept :), (congrArg State.txlen hkept :), (congrArg State.txbuf hkept :)⟩

end Sys2Proof.Machine
end

section
/-! SUPPORT. Who writes what (spec 10_state sections 3 and 5, 70_reset_and_hazards section 3): the frame of each
family of instructions, read off the cases of `exec_next_cases`. -/

namespace Sys2Proof.Machine

/-- A response row writes the result registers and CRC only (log 12). -/
theorem takeResponse_frame (r : Response) (s : State) :
    { takeResponse r s with
      status := s.status, exc := s.exc, pcount := s.pcount, crc := s.crc, pword := s.pword } = s := by
  obtain ⟨ws, h⟩ | ⟨c, h⟩ := applyResponse_cases r (setCrc (crc16 r.body) s) <;> rw [takeResponse, h] <;> rfl

/-- What is left alone by an update of the result registers and CRC. -/
theorem fields_of_results_frame {s t : State}
    (h : { t with status := s.status, exc := s.exc, pcount := s.pcount, crc := s.crc, pword := s.pword } = s) :
    (t.slave = s.slave ∧ t.addr = s.addr ∧ t.arg = s.arg ∧ t.wdata = s.wdata ∧ t.params = s.params ∧
      t.events = s.events ∧ t.rsp = s.rsp ∧ t.draws = s.draws) ∧
    (t.txbuf = s.txbuf ∧ t.txlen = s.txlen) ∧ t.rxbuf = s.rxbuf ∧ t.rxlen = s.rxlen :=
  ⟨⟨(congrArg State.slave h :), (congrArg State.addr h :), (congrArg State.arg h :), (congrArg State.wdata h :),
    (congrArg State.params h :), (congrArg State.events h :), (congrArg State.rsp h :),
    (congrArg State.draws h :)⟩, ⟨(congrArg State.txbuf h :), (congrArg State.txlen h :)⟩,
    (congrArg State.rxbuf h :), (congrArg State.rxlen h :)⟩

/-- Settles O36: every case of an instruction's next state keeps the operands; only a frame built may have drawn
free values, and only ENC_WRN draws any. -/
theorem operandRegistersWrittenByNoCommand : Obligations.OperandRegistersWrittenByNoCommand := by
  unfold Obligations.OperandRegistersWrittenByNoCommand
  intro i s t h
  have hdecoded : ∀ u : State,
      { u with status := s.status, exc := s.exc, pcount := s.pcount, crc := s.crc, pword := s.pword } = s →
      u.slave = s.slave ∧ u.addr = s.addr ∧ u.arg = s.arg ∧ u.wdata = s.wdata ∧ u.params = s.params ∧
        u.events = s.events ∧ u.rsp = s.rsp ∧ s.draws ≤ u.draws ∧
        (u.draws = s.draws ∨ ∃ imm, i = .encWrn imm) := by
    intro u hu
    obtain ⟨⟨hslave, haddr, harg, hwdata, hparams, hevents, hrsp, hdraws⟩, -⟩ := fields_of_results_frame hu
    exact ⟨hslave, haddr, harg, hwdata, hparams, hevents, hrsp, hdraws.ge, .inl hdraws⟩
  obtain ⟨c, rfl, -⟩ | ⟨body, k, rfl, -, hk⟩ | ⟨rfl, -⟩ | ⟨b, rfl, -⟩ | ⟨e, rfl, -⟩ | ⟨r, rfl, -⟩ :=
    exec_next_cases h
  · exact ⟨rfl, rfl, rfl, rfl, rfl, rfl, rfl, le_rfl, .inl rfl⟩
  · refine ⟨rfl, rfl, rfl, rfl, rfl, rfl, rfl, Nat.le_add_right _ _, hk.imp_left ?_⟩
    rintro rfl
    rfl
  · exact ⟨rfl, rfl, rfl, rfl, rfl, rfl, rfl, le_rfl, .inl rfl⟩
  · exact ⟨rfl, rfl, rfl, rfl, rfl, rfl, rfl, le_rfl, .inl rfl⟩
  · exact hdecoded _ (decFrame_frame e s)
  · exact hdecoded _ (takeResponse_frame r s)

/-- Settles O37: the two cases that write the result registers are those of an instruction that decodes. -/
theorem onlyDecodingWritesResults : Obligations.OnlyDecodingWritesResults := by
  unfold Obligations.OnlyDecodingWritesResults
  intro i s t hi h
  obtain ⟨c, rfl, -⟩ | ⟨body, k, rfl, -⟩ | ⟨rfl, -⟩ | ⟨b, rfl, -⟩ | ⟨e, -, -, hd⟩ | ⟨r, -, hd⟩ := exec_next_cases h
  · exact ⟨rfl, rfl, rfl, rfl⟩
  · exact ⟨rfl, rfl, rfl, rfl⟩
  · exact ⟨rfl, rfl, rfl, rfl⟩
  · exact ⟨rfl, rfl, rfl, rfl⟩
  · rw [hi] at hd
    cases hd
  · rw [hi] at hd
    cases hd

/-- Settles O38: the transmit buffer changes where a frame was built, the receive buffer where one was received. -/
theorem buffersHaveOneWriter : Obligations.BuffersHaveOneWriter := by
  unfold Obligations.BuffersHaveOneWriter
  refine ⟨fun i s t hi h => ?transmit, fun i s t hi h => ?receive⟩
  case transmit =>
    obtain ⟨c, rfl, -⟩ | ⟨body, k, -, he, -⟩ | ⟨rfl, -⟩ | ⟨b, rfl, -⟩ | ⟨e, rfl, -⟩ | ⟨r, rfl, -⟩ := exec_next_cases h
    · exact ⟨rfl, rfl⟩
    · rw [hi] at he
      cases he
    · exact ⟨rfl, rfl⟩
    · exact ⟨rfl, rfl⟩
    · exact (fields_of_results_frame (decFrame_frame e s)).2.1
    · exact (fields_of_results_frame (takeResponse_frame r s)).2.1
  case receive =>
    obtain ⟨c, rfl, -⟩ | ⟨body, k, rfl, -⟩ | ⟨-, hr⟩ | ⟨b, -, hr, -⟩ | ⟨e, rfl, -⟩ | ⟨r, rfl, -⟩ := exec_next_cases h
    · exact ⟨rfl, rfl⟩
    · exact ⟨rfl, rfl⟩
    · rw [hi] at hr
      cases hr
    · rw [hi] at hr
      cases hr
    · exact (fields_of_results_frame (decFrame_frame e s)).2.2
    · exact (fields_of_results_frame (takeResponse_frame r s)).2.2

/-- An instruction that encodes neither receives nor decodes, and one that receives does not decode. -/
theorem families_exclusive (i : Instr) : (encodes i = true → receives i = false ∧ decodes i = false) ∧
    (receives i = true → decodes i = false) := by
  cases i <;> simp [encodes, receives, decodes]

/-- The last two bytes of a frame built are the CRC left in CRC, the low byte first (41_encode R75). -/
theorem buildFrame_trailer (body : List Byte) (s : State) :
    memFind (buildFrame body s).txbuf ((buildFrame body s).txlen - 2) = some (lo (buildFrame body s).crc) ∧
    memFind (buildFrame body s).txbuf ((buildFrame body s).txlen - 1) = some (hi (buildFrame body s).crc) := by
  obtain ⟨hbytes, hlen, hcrc, -⟩ := buildFrame_builds body s
  rw [hbytes, hbytes, hlen, hcrc, if_pos (by omega), if_pos (by omega)]
  simp

/-- Settles O39: RX_CLEAR and RX_BYTE have their own cases, ShortRead is step 1, and an encoder has built a frame. -/
theorem sharedCrcEngine : Obligations.SharedCrcEngine := by
  unfold Obligations.SharedCrcEngine
  refine ⟨fun i s t hi h => ?receive, fun e s t h hst => ?short, fun i s t hi h => ?encode⟩
  case receive =>
    obtain ⟨hencodes, hdecodes⟩ := families_exclusive i
    obtain ⟨c, -, -, hr⟩ | ⟨body, k, -, he, -⟩ | ⟨rfl, -⟩ | ⟨b, rfl, -⟩ | ⟨e, -, -, hd⟩ | ⟨r, -, hd⟩ :=
      exec_next_cases h
    · rw [hi] at hr
      cases hr
    · exact absurd hi (by simp [(hencodes he).1])
    · rfl
    · rfl
    · exact absurd hd (by simp [hdecodes hi])
    · exact absurd hd (by simp [hdecodes hi])
  case short =>
    obtain ⟨-, -, hcrc, -⟩ := errorRecordsExactly e s t h (by simp [hst])
    exact hcrc hst
  case encode =>
    obtain ⟨hrecv, hdec⟩ := (families_exclusive i).1 hi
    obtain ⟨c, -, he, -⟩ | ⟨body, k, rfl, -⟩ | ⟨-, hr⟩ | ⟨b, -, hr, -⟩ | ⟨e, -, -, hd⟩ | ⟨r, -, hd⟩ :=
      exec_next_cases h
    · exact absurd hi (by simp [he])
    · exact buildFrame_trailer body _
    · exact absurd hr (by simp [hrecv])
    · exact absurd hr (by simp [hrecv])
    · exact absurd hd (by simp [hdec])
    · exact absurd hd (by simp [hdec])

end Sys2Proof.Machine
end

section
/-! SUPPORT. A step of each kind of bus operation (spec 10_state R27, R28, 70_reset R135): what the request is served
as, what a WR and a RD do, and the obligations on the host's side. -/

namespace Sys2Proof.Machine

/-! ### CMD and refusals -/

/-- A step takes the host's next request and serves it. -/
theorem step_request {s : State} {k : BitVec 2} {a : BitVec 12} {d : Word} {rest : List HostEvent}
    (h : s.events = .request k a d :: rest) : step s = serveRequest k a d { s with events := rest } := by
  rw [step, serveNext, h]
  rfl

/-- A step that takes the reset input resets the block. -/
theorem step_reset {s : State} {rest : List HostEvent} (h : s.events = .reset :: rest) :
    step s = .next (applyReset { s with events := rest }) := by
  rw [step, serveNext, h]
  rfl

/-- A CMD of a word that decodes is its instruction run and answered. -/
theorem serveCommand_ok {cw : Word} {i : Instr} (h : decodeCommand cw = .ok i) (s : State) :
    serveCommand cw s = finishCommand s (exec i s) := by
  rw [serveCommand, h]

/-- Settles O40: the CMD's word is decoded, and the outcome of its instruction is answered. -/
theorem stepRunsTheDecodedInstruction : Obligations.StepRunsTheDecodedInstruction := by
  unfold Obligations.StepRunsTheDecodedInstruction
  intro s a cw rest i hev hdec
  have hstep : step s = finishCommand { s with events := rest } (exec i { s with events := rest }) := by
    rw [step_request hev]
    exact serveCommand_ok hdec _
  refine ⟨fun t ht => ?_, fun r hr => ?_⟩
  · rw [hstep, ht]
    rfl
  · rw [hstep, hr]
    rfl

/-- Settles O41: a word with reserved bits decodes to nothing and kind 3 is no operation; both are turned away. -/
theorem reservedRequestsAreRefused : Obligations.ReservedRequestsAreRefused := by
  unfold Obligations.ReservedRequestsAreRefused
  refine ⟨fun s a cw rest hev hbits => ?_, fun s a d rest hev => ?_⟩
  · have hreject : decodeCommand cw = .error .reservedBits := (commandWordsHaveOneMeaning cw).2 hbits
    rw [step_request hev]
    show serveCommand cw _ = _
    rw [serveCommand, hreject]
    rfl
  · rw [step_request hev]
    rfl

/-- Settles O51: an idle step, a reset, a read, a write, a command run or turned away: each is a next state. -/
theorem everyStepAnswers : Obligations.EveryStepAnswers := by
  unfold Obligations.EveryStepAnswers
  intro s
  obtain ⟨-, h⟩ | ⟨rest, -, h⟩ | ⟨k, a, d, rest, -, h⟩ := step_cases s
  · exact ⟨_, h⟩
  · exact ⟨_, h⟩
  rw [h]
  obtain hq | hq | hq | hq := serveRequest_cases k a d { s with events := rest } <;> rw [hq]
  · exact ⟨_, rfl⟩
  · exact ⟨_, rfl⟩
  · obtain hc | ⟨i, t, -, -, hc⟩ := serveCommand_cases d { s with events := rest } <;> exact ⟨_, hc⟩
  · exact ⟨_, rfl⟩

/-! ### WR -/

/-- The low byte is the word truncated to eight bits (00_scope R6). -/
theorem lo_eq_setWidth (w : Word) : lo w = w.setWidth 8 := by
  apply BitVec.eq_of_getLsbD_eq
  intro i hi
  rw [lo, BitVec.getLsbD_extractLsb', BitVec.getLsbD_setWidth, Nat.zero_add]

/-- Everything a WR can come to: one operand register written, or nothing but the answer (10_state R27). -/
theorem serveWrite_cases (n : Nat) (v : Word) (s : State) :
    (n = 0x000 ∧ serveWrite n v s = respond 0x0000#16 false { s with slave := lo v }) ∨
    (n = 0x001 ∧ serveWrite n v s = respond 0x0000#16 false { s with addr := v }) ∨
    (n = 0x002 ∧ serveWrite n v s = respond 0x0000#16 false { s with arg := v }) ∨
    (∃ i, n = 0x100 + i ∧ (s.params.hasFc10 = true ∧ i < s.params.wmax) ∧
      serveWrite n v s = respond 0x0000#16 false { s with wdata := memWrite s.wdata i v }) ∨
    (n ≠ 0x000 ∧ n ≠ 0x001 ∧ n ≠ 0x002 ∧
      (∀ i, s.params.hasFc10 = true ∧ i < s.params.wmax → n ≠ 0x100 + i) ∧
      serveWrite n v s = respond 0x0000#16 false s) := by
  rw [serveWrite]
  cases h : regOf s.params n with
  | none =>
    refine .inr (.inr (.inr (.inr ⟨?_, ?_, ?_, ?_, rfl⟩)))
    · rintro rfl
      cases h
    · rintro rfl
      cases h
    · rintro rfl
      cases h
    · rintro i hi rfl
      have hmax := wmax_le s.params
      rw [regOf_wdata s.params (by omega), if_pos hi] at h
      cases h
  | some r =>
    obtain ⟨rfl, hwdata⟩ := regOf_some h
    have hmax := wmax_le s.params
    cases r with
    | slave => exact .inl ⟨rfl, rfl⟩
    | addr => exact .inr (.inl ⟨rfl, rfl⟩)
    | arg => exact .inr (.inr (.inl ⟨rfl, rfl⟩))
    | wdata i => exact .inr (.inr (.inr (.inl ⟨i, rfl, hwdata i rfl, rfl⟩)))
    | _ =>
      refine .inr (.inr (.inr (.inr ⟨?_, ?_, ?_, fun i hi => ?_, rfl⟩))) <;> simp only [Reg.number] <;> omega

/-- Settles O42: each case of a WR changes the one register whose number it names. -/
theorem hostWriteChangesOneOperand : Obligations.HostWriteChangesOneOperand := by
  unfold Obligations.HostWriteChangesOneOperand
  intro s a v rest hev
  refine ⟨serveWrite a.toNat v { s with events := rest }, step_request hev, ?_⟩
  obtain ⟨hn, ht⟩ | ⟨hn, ht⟩ | ⟨hn, ht⟩ | ⟨i, hn, hi, ht⟩ | ⟨h0, h1, h2, hw, ht⟩ :=
    serveWrite_cases a.toNat v { s with events := rest } <;> rw [ht]
  · refine ⟨rfl, rfl, ?_, ?_, ?_, fun j => (if_neg (by omega)).symm, rfl⟩ <;> simp [hn, lo_eq_setWidth]
  · refine ⟨rfl, rfl, ?_, ?_, ?_, fun j => (if_neg (by omega)).symm, rfl⟩ <;> simp [hn]
  · refine ⟨rfl, rfl, ?_, ?_, ?_, fun j => (if_neg (by omega)).symm, rfl⟩ <;> simp [hn]
  · refine ⟨rfl, rfl, ?_, ?_, ?_, fun j => ?_, rfl⟩
    · rw [if_neg (by omega)]; rfl
    · rw [if_neg (by omega)]; rfl
    · rw [if_neg (by omega)]; rfl
    · obtain ⟨hf, hmax⟩ := hi
      rw [respond_wdata, memFind_memWrite]
      by_cases hj : j = i
      · rw [if_pos hj, if_pos ⟨hf, hj ▸ hmax, hj ▸ hn⟩]
      · rw [if_neg hj, if_neg (by omega)]
  · refine ⟨rfl, rfl, (if_neg h0).symm, (if_neg h1).symm, (if_neg h2).symm, fun j => ?_, rfl⟩
    exact (if_neg fun hj => hw j ⟨hj.1, hj.2.1⟩ hj.2.2).symm

/-! ### RD -/

/-- What a register reads as does not depend on the host's list. -/
theorem readReg_events (s : State) (evs : List HostEvent) : readReg { s with events := evs } = readReg s := by
  funext r
  cases r <;> rfl

/-- A RD of a register with a value answers that value (10_state R27). -/
theorem serveRead_some {n : Nat} {s : State} {v : Word} (h : (regOf s.params n).bind (readReg s) = some v) :
    serveRead n s = respond v false s := by
  rw [serveRead, h]

/-- A RD of a number with no defined value answers a free value, and draws it (10_state R24, R29; log 5). -/
theorem serveRead_none {n : Nat} {s : State} (h : (regOf s.params n).bind (readReg s) = none) :
    serveRead n s = respond (freeRead (regOf s.params n) s.draws) false { s with draws := s.draws + 1 } := by
  rw [serveRead, h]

/-- Settles O43: the values are those of `readReg`; a read writes the answer and may count a free value. -/
theorem hostReadHasNoSideEffect : Obligations.HostReadHasNoSideEffect := by
  unfold Obligations.HostReadHasNoSideEffect
  refine ⟨fun s => ⟨rfl, rfl, rfl, rfl, rfl, rfl, rfl, rfl, rfl, fun i w h => h, fun i w hi h => ?_, fun i b hi h => ?_,
    fun i b hi h => ?_⟩, fun s a d rest hev => ?_⟩
  · rw [readReg, if_pos hi, h]
  · rw [readReg, if_pos hi, h]
    rfl
  · rw [readReg, if_pos hi, h]
    rfl
  refine ⟨serveRead a.toNat { s with events := rest }, step_request hev, ?_, fun r v hr hv => ?_, fun hnone => ?_⟩
  · obtain ⟨r, k, hread⟩ := serveRead_eq a.toNat { s with events := rest }
    rw [hread]
  · rw [serveRead_some (v := v) (by rw [readReg_events]; simp [hr, hv])]
    exact ⟨rfl, rfl⟩
  · rw [serveRead_none (by rw [readReg_events]; exact hnone)]
    exact ⟨rfl, rfl⟩

/-- Settles O44: each such element is read behind the test it fails, or was never written. -/
theorem undefinedElementsHaveNoValue : Obligations.UndefinedElementsHaveNoValue := by
  unfold Obligations.UndefinedElementsHaveNoValue
  exact fun s i => ⟨fun h => h, fun h => if_neg (Nat.not_lt.mpr h), fun h => if_neg (Nat.not_lt.mpr h),
    readReg_rxbuf_beyond s i⟩

/-! ### Reset -/

/-- Settles O46: the reset input writes every register; WDATA lists nothing, and each length is 0. -/
theorem resetInputGivesResetState : Obligations.ResetInputGivesResetState := by
  unfold Obligations.ResetInputGivesResetState
  intro s rest hev
  refine ⟨_, step_reset hev, rfl, rfl, rfl, rfl, rfl, rfl, rfl, rfl, rfl, rfl, rfl, fun i => ?_⟩
  obtain ⟨hwdata, hpword, htxbuf, hrxbuf⟩ := undefinedElementsHaveNoValue (applyReset { s with events := rest }) i
  exact ⟨hwdata rfl, hpword (Nat.zero_le i), htxbuf (Nat.zero_le i), hrxbuf (Nat.zero_le i)⟩

/-- Settles O47: the fields of State.reset, and LENW as the least width that holds FRAME_MAX. -/
theorem resetStateValues : Obligations.ResetStateValues := by
  unfold Obligations.ResetStateValues
  have hlenw : Nat.clog 2 (256 + 1) = 9 := by norm_num
  exact ⟨rfl, rfl, rfl, rfl, rfl, rfl, rfl, rfl, rfl, rfl, rfl, rfl, rfl, hlenw⟩

end Sys2Proof.Machine
end

section
/-! SUPPORT. The host's value encodings (spec 43_host_layers section 1; logs 17, 24, 26): decoding and encoding undo
each other. -/

namespace Sys2Proof.Machine

/-- A RawValue read as an unsigned number is that number's RawValue. -/
theorem rawOfNat?_toNat {n : Nat} (r : BitVec n) : rawOfNat? (r.toNat : ℚ) = some r := by
  have hfits : ((r.toNat : ℚ)).den = 1 ∧ 0 ≤ ((r.toNat : ℚ)).num ∧ ((r.toNat : ℚ)).num < 2 ^ n := by
    rw [Rat.den_natCast, Rat.num_natCast]
    exact ⟨rfl, Int.natCast_nonneg _, by exact_mod_cast r.isLt⟩
  rw [rawOfNat?, if_pos hfits, Rat.num_natCast, BitVec.ofInt_natCast, BitVec.ofNat_toNat, BitVec.setWidth_eq]

/-- A RawValue read as a two's-complement number is that number's RawValue. -/
theorem rawOfInt?_toInt {n : Nat} (r : BitVec n) : rawOfInt? (r.toInt : ℚ) = some r := by
  have hfits : ((r.toInt : ℚ)).den = 1 ∧ -2 ^ n ≤ 2 * ((r.toInt : ℚ)).num ∧ 2 * ((r.toInt : ℚ)).num < 2 ^ n := by
    rw [Rat.den_intCast, Rat.num_intCast]
    exact ⟨rfl, by exact_mod_cast r.le_two_mul_toInt, by exact_mod_cast r.two_mul_toInt_lt⟩
  rw [rawOfInt?, if_pos hfits, Rat.num_intCast, BitVec.ofInt_toInt]

/-- Encoding the decoded value gives the RawValue back, under every encoding with a scale that divides
(43_host_layers R103). -/
theorem encodeValue_decodeValue {n : Nat} {e : ValueEncoding} (he : e ≠ .fixedPoint 0) (r : BitVec n) :
    encodeValue e (decodeValue e r) = some r := by
  cases e with
  | unsigned16 => exact rawOfNat?_toNat r
  | signed16 => exact rawOfInt?_toInt r
  | fixedPoint k =>
    have hk : k ≠ 0 := fun h => he (h ▸ rfl)
    rw [decodeValue, encodeValue, if_neg hk, div_mul_cancel₀ _ hk, rawOfInt?_toInt]

/-- The words a RawValue is put together from are the words it is split into, whichever order the register has. -/
theorem splitRaw_joinWords (address w0 w1 : Word) : splitRaw address (joinWords address w0 w1) = [w0, w1] := by
  have hhigh : ∀ a b : Word, (a ++ b : BitVec 32).extractLsb' 16 16 = a := fun a b => by
    apply BitVec.eq_of_getLsbD_eq
    intro i hi
    rw [BitVec.getLsbD_extractLsb', BitVec.getLsbD_append, if_neg (by omega), Nat.add_sub_cancel_left]
    simp [hi]
  have hlow : ∀ a b : Word, (a ++ b : BitVec 32).extractLsb' 0 16 = b := fun a b => by
    apply BitVec.eq_of_getLsbD_eq
    intro i hi
    rw [BitVec.getLsbD_extractLsb', BitVec.getLsbD_append, if_pos (by omega), Nat.zero_add]
    simp [hi]
  rw [splitRaw, joinWords]
  split
  · rw [hhigh, hlow]
  · rw [hhigh, hlow]

/-- A one-word payload is read by the register's encoding. -/
theorem decodeWords_one {d : RegisterDesc} (hd : d.width = .one) (he : d.encoding ≠ .fixedPoint 0) (w : Word) :
    decodeWords d [w] = decodeValue d.encoding w := by
  unfold decodeWords
  rw [if_neg he, hd]

/-- A two-word payload is read as the RawValue of the two words. -/
theorem decodeWords_two {d : RegisterDesc} (hd : d.width = .two) (he : d.encoding ≠ .fixedPoint 0) (w0 w1 : Word) :
    decodeWords d [w0, w1] = decodeValue d.encoding (joinWords d.address w0 w1) := by
  unfold decodeWords
  rw [if_neg he, hd]

/-- Settles O55: the two round trips, the words of a RawValue in the register's order, and the test a value that is
no whole multiple fails. -/
theorem fixedPointRoundTrip : Obligations.FixedPointRoundTrip := by
  unfold Obligations.FixedPointRoundTrip
  refine ⟨fun n e r he => encodeValue_decodeValue he r, fun d v w hd h => ?one, fun d v r hd h => ?two,
    fun d => splitRaw_joinWords d.address, fun n k v hden => ?none, ?value⟩
  case one =>
    obtain ⟨he, hv⟩ := decodeValue_of_encodeValue h
    rw [decodeWords_one hd he, hv]
  case two =>
    obtain ⟨he, hv⟩ := decodeValue_of_encodeValue h
    obtain ⟨w0, w1, hsplit, hjoin⟩ := splitRaw_cases d.address r
    rw [hsplit, decodeWords_two hd he, hjoin, hv]
  case none =>
    rw [encodeValue]
    split_ifs
    · rfl
    · exact if_neg fun h => hden h.1
  case value =>
    have hraw : (0x00EB#16).toInt = 235 := by decide
    rw [decodeValue, hraw]
    norm_num

end Sys2Proof.Machine
end

section
/-! SUPPORT. The WDATA writes of ENCODE_WRITE_MULTIPLE and the request it builds (spec 30_encoding R61; logs 17,
23). -/

namespace Sys2Proof.Machine

/-- WR of words to WDATA from index `i` up: an element the block has takes its word, and nothing else changes but
the answer (10_state R27). -/
theorem hostRun_wdata (data : List Word) : ∀ (i : Nat) (s : State), ∃ m r,
    hostRun (wdataEvents i data) s = { s with wdata := m, rsp := r } ∧
    ∀ j, memFind m j =
      if s.params.hasFc10 = true ∧ j < s.params.wmax ∧ i ≤ j ∧ j < i + data.length then data[j - i]?
      else memFind s.wdata j := by
  induction data with
  | nil => exact fun i s => ⟨s.wdata, s.rsp, rfl, fun j => (if_neg (by simp)).symm⟩
  | cons w ws ih =>
    intro i s
    obtain ⟨r, hr⟩ := hostDo_wdata i w s
    obtain ⟨m, r', hrun, hm⟩ := ih (i + 1) (hostDo s (wrEvent (wdataNumber i) w))
    refine ⟨m, r', by rw [wdataEvents, hostRun_cons, hrun, hr], fun j => ?_⟩
    rw [hm, hr]
    have hfirst : memFind (if s.params.hasFc10 = true ∧ i < s.params.wmax then memWrite s.wdata i w else s.wdata) j =
        if s.params.hasFc10 = true ∧ i < s.params.wmax ∧ j = i then some w else memFind s.wdata j := by
      by_cases hi : s.params.hasFc10 = true ∧ i < s.params.wmax
      · rw [if_pos hi, memFind_memWrite]
        exact if_congr (by simp [hi]) rfl rfl
      · rw [if_neg hi, if_neg fun h => hi ⟨h.1, h.2.1⟩]
    simp only [hfirst, List.length_cons]
    by_cases hlater : s.params.hasFc10 = true ∧ j < s.params.wmax ∧ i + 1 ≤ j ∧ j < i + 1 + ws.length
    · rw [if_pos hlater, if_pos ⟨hlater.1, hlater.2.1, by omega, by omega⟩,
        show j - i = j - (i + 1) + 1 by omega, List.getElem?_cons_succ]
    rw [if_neg hlater]
    by_cases hj : s.params.hasFc10 = true ∧ i < s.params.wmax ∧ j = i
    · obtain ⟨hf, hi, rfl⟩ := hj
      rw [if_pos ⟨hf, hi, rfl⟩, if_pos ⟨hf, hi, le_rfl, by omega⟩, Nat.sub_self]
      rfl
    · rw [if_neg hj, if_neg]
      rintro ⟨hf, hmax, hle, hlt⟩
      obtain rfl | hgt := hle.eq_or_lt
      · exact hj ⟨hf, hmax, rfl⟩
      · exact hlater ⟨hf, hmax, hgt, by omega⟩

/-- Settles O60: the writes from index 0 up. -/
theorem wdataWritesReachWdataOnly : Obligations.WdataWritesReachWdataOnly := by
  unfold Obligations.WdataWritesReachWdataOnly
  rintro s data t rfl
  obtain ⟨m, r, hrun, hm⟩ := hostRun_wdata data 0 s
  rw [hrun]
  refine ⟨fun i => ?_, rfl⟩
  simpa using hm i

/-- An answer to the host changes no byte it can read out of TXBUF. -/
theorem txFrame_respond (d : Word) (refused : Bool) (s : State) : txFrame (respond d refused s) = txFrame s := rfl

/-- ENCODE_WRITE_MULTIPLE of words that fit leaves the RQ_WRN frame of exactly those words to be sent and keeps the
parameters (30_encoding R61). -/
theorem txFrame_hostRun_encodeWriteMultiple (a : Byte) (start : Word) {data : List Word} {s : State}
    (hf : s.params.hasFc10 = true) (h1 : 1 ≤ data.length) (hmax : data.length ≤ s.params.wmax) :
    txFrame (hostRun (encodeWriteMultipleEvents a start data) s) = withTrailer (bodyRqWrn a start data) ∧
    (hostRun (encodeWriteMultipleEvents a start data) s).params = s.params := by
  obtain ⟨r, hops⟩ := hostRun_operands a start (BitVec.ofNat 16 data.length) s
  obtain ⟨m, r', hwr, hm⟩ := hostRun_wdata data 0
    { s with slave := a, addr := start, arg := BitVec.ofNat 16 data.length, rsp := r }
  rw [encodeWriteMultipleEvents, hostRun_append, hostRun_append, hops, hwr]
  set u : State :=
    { s with slave := a, addr := start, arg := BitVec.ofNat 16 data.length, wdata := m, rsp := r' }
  have hwmax := wmax_le s.params
  have harg : u.arg.toNat = data.length := by
    show (BitVec.ofNat 16 data.length).toNat = data.length
    rw [BitVec.toNat_ofNat, Nat.mod_eq_of_lt (by omega)]
  have hdata : ∀ i < data.length, memFind u.wdata i = data[i]? := fun i hi =>
    (hm i).trans (if_pos ⟨hf, by show i < s.params.wmax; omega, Nat.zero_le _, by omega⟩)
  obtain ⟨hwords, -⟩ := wdataWords_written u data hdata
  have hx := exec_encWrn_accepted 0#8 (s := u) hf (by omega) (by show _ ≤ s.params.wmax; omega)
  rw [harg, hwords] at hx
  have hrun : hostRun [cmdEvent 4#3 0#8] u = _ := hostDo_command (op := 4#3) hx
  rw [hrun, txFrame_respond, txFrame_buildFrame]
  exact ⟨rfl, rfl⟩

/-- ENCODE_READ leaves the RQ_READ frame to be sent and keeps the parameters (30_encoding R61). -/
theorem txFrame_hostRun_encodeRead (a : Byte) (start count : Word) (s : State) :
    txFrame (hostRun (encodeReadEvents a start count) s) = withTrailer (bodyRqRead a start count) ∧
    (hostRun (encodeReadEvents a start count) s).params = s.params := by
  obtain ⟨r, hrun⟩ := hostRun_encodeRead a start count s
  rw [hrun]
  exact ⟨txFrame_buildFrame _ s, rfl⟩

/-- ENCODE_WRITE_SINGLE leaves the RQ_WR1 frame to be sent and keeps the parameters (30_encoding R61). -/
theorem txFrame_hostRun_encodeWriteSingle (a : Byte) (reg val : Word) (s : State) :
    txFrame (hostRun (encodeWriteSingleEvents a reg val) s) = withTrailer (bodyRqWr1 a reg val) ∧
    (hostRun (encodeWriteSingleEvents a reg val) s).params = s.params := by
  obtain ⟨r, hrun⟩ := hostRun_encodeWriteSingle a reg val s
  rw [hrun]
  exact ⟨txFrame_buildFrame _ s, rfl⟩

end Sys2Proof.Machine
end

section
/-! SUPPORT. The Transaction Engine (spec 43_host_layers section 2; log 17): what a built request comes to, what an
operation that is not issued comes to, and the obligations on transactions. -/

namespace Sys2Proof.Machine

/-- An engine run is its first transition and the rest of the run. -/
theorem transact_eq (cfg : HostConfig) (tr : Transport) (inv : Invocation) (s : State) :
    transact cfg tr inv s = txnRun cfg tr inv 3 (buildRequest cfg inv s) := rfl

/-- A transaction that has failed stays failed (43_host_layers R108). -/
theorem txnRun_failed (cfg : HostConfig) (tr : Transport) (inv : Invocation) (e : ErrorKind) (s : State) (n : Nat) :
    txnRun cfg tr inv n (.failed e, s) = (.failed e, s) := by
  induction n with
  | zero => rfl
  | succ n ih => exact ih

/-- An operation that is not issued leaves the engine idle, however often it is asked (log 17). -/
theorem txnRun_idle {cfg : HostConfig} {inv : Invocation} {s : State} (h : buildRequest cfg inv s = (.idle, s))
    (tr : Transport) (n : Nat) : txnRun cfg tr inv n (.idle, s) = (.idle, s) := by
  induction n with
  | zero => rfl
  | succ n ih =>
    show txnRun cfg tr inv n (buildRequest cfg inv s) = _
    rw [h, ih]

/-- A name not in the table fails before any bus operation (43_host_layers R102). -/
theorem buildRequest_unknown {cfg : HostConfig} {inv : Invocation} (h : List.lookup inv.name cfg.registers = none)
    (s : State) : buildRequest cfg inv s = (.failed .unknownRegister, s) := by
  rw [buildRequest, resolve, h]

/-- A write to a ReadOnly register fails the access check (43_host_layers R104). -/
theorem checkAccess_readOnly {d : RegisterDesc} (h : d.access = .readOnly) (v : ℚ) :
    checkAccess d (.write v) = .error .readOnlyViolation := by
  rw [checkAccess, h]

/-- A write to a ReadWrite register passes the access check (43_host_layers R104). -/
theorem checkAccess_readWrite {d : RegisterDesc} (h : d.access = .readWrite) (v : ℚ) :
    checkAccess d (.write v) = .ok () := by
  rw [checkAccess, h]

section
variable {cfg : HostConfig} {inv : Invocation} {d : RegisterDesc} {s : State}
  (hd : resolve cfg.registers inv.name = .ok d)
include hd

/-- An operation that fails the access check does no bus operation (43_host_layers R104). -/
theorem buildRequest_denied {e : ErrorKind} (ha : checkAccess d inv.op = .error e) :
    buildRequest cfg inv s = (.failed e, s) := by
  simp only [buildRequest, hd, ha]

/-- An operation with no request to issue does no bus operation (log 17). -/
theorem buildRequest_not_issued (ha : checkAccess d inv.op = .ok ())
    (he : requestEvents s.params cfg.slave d inv.op = none) : buildRequest cfg inv s = (.idle, s) := by
  simp only [buildRequest, hd, ha, he]

/-- An operation that passes the check and has a request is built from that request's bus operations
(43_host_layers R106). -/
theorem buildRequest_built {evs : List HostEvent} (ha : checkAccess d inv.op = .ok ())
    (he : requestEvents s.params cfg.slave d inv.op = some evs) :
    buildRequest cfg inv s = (.requestBuilt (txFrame (hostRun evs s)), hostRun evs s) := by
  simp only [buildRequest, hd, ha, he]

end

/-- Settles O56: both errors come from the first transition, which has done no bus operation yet. -/
theorem accessErrorsTouchNothing : Obligations.AccessErrorsTouchNothing := by
  unfold Obligations.AccessErrorsTouchNothing
  refine ⟨fun cfg tr name v s d hd hro => ?_, fun cfg tr inv s h => ?_⟩
  · have hdenied : buildRequest cfg { name := name, op := .write v } s = (.failed .readOnlyViolation, s) :=
      buildRequest_denied hd (checkAccess_readOnly hro v)
    rw [transact_eq, hdenied]
    exact txnRun_failed ..
  · rw [transact_eq, buildRequest_unknown h]
    exact txnRun_failed ..

/-- What a built request comes to: the transport's failure, or what the host makes of the reply, at most FRAME_MAX
bytes of it, under the request's own function code (43_host_layers R107, R109). -/
theorem transact_of_built {cfg : HostConfig} {tr : Transport} {inv : Invocation} {s u : State} {f : List Byte}
    (hbuilt : buildRequest cfg inv s = (.requestBuilt f, u)) (hp : u.params = s.params)
    (ha : admitted s.params (ownCode f)) :
    (∀ e, tr.write f = .error e → (transact cfg tr inv s).1 = .failed (.transportError e)) ∧
    (∀ x e, tr.write f = .ok x →
      tr.readWithTimeout f (min cfg.maxBytes s.params.frameMax) cfg.duration = .error e →
      (transact cfg tr inv s).1 = .failed (.transportError e)) ∧
    (∀ x bytes, tr.write f = .ok x →
      tr.readWithTimeout f (min cfg.maxBytes s.params.frameMax) cfg.duration = .ok bytes →
      (transact cfg tr inv s).1 =
        if bytes.take (min cfg.maxBytes s.params.frameMax) = [] then .failed .timeout
        else match decodeResult (ownCode f) (bytes.take (min cfg.maxBytes s.params.frameMax)) with
          | .ok ws => .decoded ws
          | .error e => .failed (.block e)) := by
  have hrun : transact cfg tr inv s = txnRun cfg tr inv 2 (txnStep cfg tr inv (.requestBuilt f) u) := by
    rw [transact_eq, hbuilt]
    rfl
  have hbound : replyBound cfg u = min cfg.maxBytes s.params.frameMax := by rw [replyBound, hp]
  have hsent : ∀ x, tr.write f = .ok x → transact cfg tr inv s = txnStep cfg tr inv (.awaitingResponse f) u := by
    intro x hx
    rw [hrun, txnStep, hx]
    rfl
  refine ⟨fun e he => ?write, fun x e hx he => ?read, fun x bytes hx hbytes => ?reply⟩
  case write =>
    rw [hrun, txnStep, he]
    rfl
  case read => rw [hsent x hx, txnStep, hbound, he]
  case reply =>
    rw [hsent x hx, txnStep, hbound, hbytes]
    show (receiveReply f u (bytes.take (min cfg.maxBytes s.params.frameMax))).1 = _
    have hlen : (bytes.take (min cfg.maxBytes s.params.frameMax)).length ≤ u.params.frameMax := by
      rw [List.length_take, hp]
      omega
    cases hreply : bytes.take (min cfg.maxBytes s.params.frameMax) with
    | nil => rfl
    | cons b bs =>
      rw [hreply] at hlen
      rw [if_neg (List.cons_ne_nil b bs)]
      exact decodeOutcome_decodeResponse f (ownCode f) (b :: bs) u (hp.symm ▸ ha) hlen

/-- Settles O57: the request built is RQ_READ of the register's address and width. -/
theorem readTransactionIsDecodeResponse : Obligations.ReadTransactionIsDecodeResponse := by
  unfold Obligations.ReadTransactionIsDecodeResponse
  rintro cfg tr name s d f hd rfl
  obtain ⟨hframe, hp⟩ := txFrame_hostRun_encodeRead cfg.slave d.address d.width.words s
  have hbuilt := buildRequest_built (inv := { name := name, op := .read }) (s := s) hd rfl rfl
  rw [hframe] at hbuilt
  exact transact_of_built hbuilt hp (.inl rfl)

/-- Settles O58: the request built is RQ_WR1 of the RawValue, or RQ_WRN of its two words. -/
theorem writeTransactionSendsItsFrame : Obligations.WriteTransactionSendsItsFrame := by
  unfold Obligations.WriteTransactionSendsItsFrame
  intro cfg tr name v s d f hd hrw hcase
  have hacc := checkAccess_readWrite hrw v
  obtain ⟨w, hwidth, henc, rfl⟩ | ⟨r, w0, w1, hwidth, hf, hmax, henc, hsplit, rfl⟩ := hcase
  · have hevs : requestEvents s.params cfg.slave d (.write v) =
        some (encodeWriteSingleEvents cfg.slave d.address w) := by
      rw [requestEvents, writeEvents, hwidth, henc]
      rfl
    obtain ⟨hframe, hp⟩ := txFrame_hostRun_encodeWriteSingle cfg.slave d.address w s
    have hbuilt := buildRequest_built (inv := { name := name, op := .write v }) hd hacc hevs
    rw [hframe] at hbuilt
    obtain ⟨hwrite, -, hreply⟩ := transact_of_built (tr := tr) hbuilt hp (.inr (.inl rfl))
    rw [if_pos hwidth]
    exact ⟨hwrite, hreply⟩
  · have hevs : requestEvents s.params cfg.slave d (.write v) =
        some (encodeWriteMultipleEvents cfg.slave d.address [w0, w1]) := by
      rw [requestEvents, writeEvents, hwidth]
      show (if _ then _ else _) = _
      rw [if_pos ⟨hf, hmax⟩, henc, Option.map_some, hsplit]
    obtain ⟨hframe, hp⟩ := txFrame_hostRun_encodeWriteMultiple cfg.slave d.address (data := [w0, w1]) hf (by simp) hmax
    have hbuilt := buildRequest_built (inv := { name := name, op := .write v }) hd hacc hevs
    have hbody : bodyRqWrn cfg.slave d.address [w0, w1] = [cfg.slave, 0x10#8, hi d.address, lo d.address, 0x00#8,
        0x02#8, 0x04#8, hi w0, lo w0, hi w1, lo w1] := bodyRqWrn_eq_of_count (n := 2#16) rfl _ _
    rw [hframe, hbody] at hbuilt
    obtain ⟨hwrite, -, hreply⟩ := transact_of_built (tr := tr) hbuilt hp (.inr (.inr ⟨rfl, hf⟩))
    rw [hwidth]
    exact ⟨hwrite, hreply⟩

/-- Settles O59: without a RawValue there are no bus operations to issue, so the engine stays where it is. -/
theorem valueWithNoRawValueIsNotIssued : Obligations.ValueWithNoRawValueIsNotIssued := by
  unfold Obligations.ValueWithNoRawValueIsNotIssued
  intro cfg tr name v s d hd hrw hcase
  have hevs : requestEvents s.params cfg.slave d (.write v) = none := by
    obtain ⟨hwidth, henc⟩ | ⟨hwidth, henc⟩ := hcase
    · rw [requestEvents, writeEvents, hwidth, henc]
      rfl
    · rw [requestEvents, writeEvents, hwidth, henc]
      exact ite_self none
  exact txnRun_idle (buildRequest_not_issued hd (checkAccess_readWrite hrw v) hevs) tr 4

end Sys2Proof.Machine
end
